-- ==== Sys2Proof/Word.lean ====
section
/-! DEFINITION. The word types of the SM4 engine (spec/00_scope.md R9, R10): bytes, 32-bit words,
64-bit registers, and the fixed-length byte strings the rules name. -/

namespace Sys2Proof

/-- `u8` (R10). -/
abbrev Byte := BitVec 8

/-- `u32` (R10). -/
abbrev Word := BitVec 32

/-- `u64` (R10): the width ADDR_W of addresses, lengths and host registers (R9). -/
abbrev U64 := BitVec 64

/-- A block or a key: exactly 16 bytes (R9: BLOCK_BYTES, KEY_BYTES); index 0 is the lowest address. -/
abbrev Block := Vector Byte 16

/-- A four-block buffer: exactly 64 bytes (R9: WR_BYTES). Lane `b` is bytes `16b .. 16b+15` (R210). -/
abbrev Buffer := Vector Byte 64

/-- A sequence of 32 round keys (R9: ROUNDS). -/
abbrev RoundKeys := Vector Word 32

/-- A 16-byte vector register of the accelerated datapath; byte 0 is the least significant (R186). -/
abbrev V128 := Vector Byte 16

/-- The number of host addresses, `2^64` (R50, R70). -/
abbrev addressSpace : Nat := 2 ^ 64

end Sys2Proof
end

