-- ==== Sys2Proof/Syntax.lean ====
section
/-! DEFINITION. The four commands of the engine, one constructor per row of spec/opcode_table.json
(spec/30_encoding.md R101, R102). -/

namespace Sys2Proof

/-- A command. `s` is the SLOT field as a natural number (R103). -/
inductive Instr where
  /-- Expand the key into an instance in slot `s` (spec/44_dispatch_facade.md R224). -/
  | newcipher (s : Nat)
  /-- Return the block size (R225). -/
  | blocksize
  /-- Encrypt one block with the instance in slot `s` (R226). -/
  | encrypt (s : Nat)
  /-- Decrypt one block with the instance in slot `s` (R227). -/
  | decrypt (s : Nat)
deriving DecidableEq, Repr

end Sys2Proof
end

