-- ==== Sys2Proof/WellFormed.lean ====
section
/-! DEFINITION. Which commands have a command word: the SLOT field has 8 bits (spec/30_encoding.md R100, R103). -/

namespace Sys2Proof

/-- A slot index fits the 8-bit SLOT field (R103). -/
def slotFits (s : Nat) : Bool := decide (s < 256)

/-- The command has a command word: its slot index, if it has one, fits SLOT. -/
def Instr.wellFormed : Instr → Bool
  | .newcipher s => slotFits s
  | .blocksize => true
  | .encrypt s => slotFits s
  | .decrypt s => slotFits s

end Sys2Proof
end

