-- ==== Sys2Proof/Decode.lean ====
section
/-! DEFINITION. Command words: `decode`, total on every 64-bit word and rejecting by name
(spec/30_encoding.md R100 to R109), and `encode`, the word of a command (R102, R110). -/

namespace Sys2Proof

/-- Why a word is no command. Every one of them is ILLEGAL_COMMAND to the host (R105). -/
inductive Illegal where
  /-- `v[63:16] != 0` (R104). -/
  | reservedBits
  /-- An opcode other than 0x01 to 0x04 (R106). -/
  | unassignedOpcode
  /-- BLOCKSIZE with SLOT != 0 (R107). -/
  | slotOnBlocksize
deriving DecidableEq, Repr

/-- The field RSV, bits 63:16 (R100). -/
def rsvField (v : U64) : BitVec 48 := v.extractLsb' 16 48

/-- The field SLOT, bits 15:8 (R100, R103). -/
def slotField (v : U64) : Byte := v.extractLsb' 8 8

/-- The field OPC, bits 7:0 (R100, R102). -/
def opcField (v : U64) : Byte := v.extractLsb' 0 8

/-- R105: decode one command word. -/
def decode (v : U64) : Except Illegal Instr :=
  if rsvField v ≠ 0 then .error .reservedBits
  else
    let s := (slotField v).toNat
    if opcField v = 0x01#8 then .ok (.newcipher s)
    else if opcField v = 0x02#8 then
      if s ≠ 0 then .error .slotOnBlocksize else .ok .blocksize
    else if opcField v = 0x03#8 then .ok (.encrypt s)
    else if opcField v = 0x04#8 then .ok (.decrypt s)
    else .error .unassignedOpcode

/-- The opcode of a command (R102). -/
def opcodeOf : Instr → Byte
  | .newcipher _ => 0x01#8
  | .blocksize => 0x02#8
  | .encrypt _ => 0x03#8
  | .decrypt _ => 0x04#8

/-- The value of the SLOT field of a command's word; BLOCKSIZE has 0 there (R102, R107). -/
def slotOf : Instr → Nat
  | .newcipher s => s
  | .blocksize => 0
  | .encrypt s => s
  | .decrypt s => s

/-- The command word of a command: OPC in bits 7:0, SLOT in bits 15:8, RSV = 0 (R100, R102, R110). -/
def encode (i : Instr) : U64 :=
  ((BitVec.ofNat 8 (slotOf i)).setWidth 64 <<< 8) ||| (opcodeOf i).setWidth 64

/-- The command the decoder reads from the `nbits` low bits of `w`, numbered as spec/opcode_table.json numbers
them: a command word is one whole 64-bit value (R109), so no byte order enters. -/
def decodeTableWord (nbits w : Nat) : Option Instr :=
  if nbits ≤ 64 then (decode (BitVec.ofNat 64 (w % 2 ^ nbits))).toOption else none

end Sys2Proof
end

