-- ==== Sys2Proof/Machine/Bits.lean ====
section
/-! DEFINITION. The bit and byte helpers of spec/00_scope.md: rotations (R11), bytes of a word, and the
big-endian reading of a block as four words with its inverse (R12). -/

namespace Sys2Proof.Machine

/-- The vector of the values of `f`, index 0 first. It is `Vector.ofFn f`, built as a list, which the kernel
evaluates in one pass. -/
def tabulate {α : Type} {n : Nat} (f : Fin n → α) : Vector α n := ⟨(List.ofFn f).toArray, by simp⟩

@[simp] theorem getElem_tabulate {α : Type} {n : Nat} (f : Fin n → α) (i : Nat) (h : i < n) :
    (tabulate f)[i] = f ⟨i, h⟩ := by
  simp [tabulate]

/-- R11: rotate a word left by `n < 32` bits. -/
def rotl32 (v : Word) (n : Nat) : Word := (v <<< n) ||| (v >>> (32 - n))

/-- Four bytes as a word, the first the most significant: `b0 ++ b1 ++ b2 ++ b3` (R10, R12). -/
def wordOf (b0 b1 b2 b3 : Byte) : Word := b0 ++ b1 ++ b2 ++ b3

/-- Byte `j` of a word, `j = 0` the most significant: bits `31 - 8j` down to `24 - 8j` (R12, R151). -/
def byteOf (w : Word) (j : Nat) : Byte := w.extractLsb' (24 - 8 * j) 8

/-- Four words: the words of a block (R12), the state of a round (R154) or of the key schedule (R135). -/
structure Words4 where
  x0 : Word
  x1 : Word
  x2 : Word
  x3 : Word
deriving DecidableEq, Repr

/-- R12: read a block as its words W0..W3, big-endian. -/
def wordsOf (b : Block) : Words4 where
  x0 := wordOf b[0] b[1] b[2] b[3]
  x1 := wordOf b[4] b[5] b[6] b[7]
  x2 := wordOf b[8] b[9] b[10] b[11]
  x3 := wordOf b[12] b[13] b[14] b[15]

/-- Word `Wj` of four words; `j = 3` for every `j` above 2. -/
def Words4.get (w : Words4) : Nat → Word
  | 0 => w.x0
  | 1 => w.x1
  | 2 => w.x2
  | _ => w.x3

/-- R12: `blockOf(W0, W1, W2, W3)`, each word written back in the same order. -/
def blockOf (w0 w1 w2 w3 : Word) : Block :=
  tabulate fun i => byteOf (Words4.get ⟨w0, w1, w2, w3⟩ (i.val / 4)) (i.val % 4)

end Sys2Proof.Machine
end

