-- ==== Sys2Proof/Machine/GenericRound.lean ====
section
/-! DEFINITION. The Generic Round Engine (spec/41_generic_round.md R151 to R160): substitution, diffusion, the
round, and the single-block transform in both directions. -/

namespace Sys2Proof.Machine

/-- R151: the S-box on each byte of a word. -/
def tau (a : Word) : Word :=
  wordOf (sbox (byteOf a 0)) (sbox (byteOf a 1)) (sbox (byteOf a 2)) (sbox (byteOf a 3))

/-- R152: the diffusion transform L. -/
def diffuse (b : Word) : Word :=
  b ^^^ rotl32 b 2 ^^^ rotl32 b 10 ^^^ rotl32 b 18 ^^^ rotl32 b 24

/-- R153: the round function `T(A) = L(tau(A))`. -/
def roundT (a : Word) : Word := diffuse (tau a)

/-- R154: one round `F` with round key `rk`. -/
def roundF (x : Words4) (rk : Word) : Words4 where
  x0 := x.x1
  x1 := x.x2
  x2 := x.x3
  x3 := x.x0 ^^^ roundT (x.x1 ^^^ x.x2 ^^^ x.x3 ^^^ rk)

/-- The rounds of a list of round keys, in order (R156). -/
def rounds (keys : List Word) (x : Words4) : Words4 := keys.foldl roundF x

/-- R155: the output block, the last four words in reverse order. -/
def reverseBlock (x : Words4) : Block := blockOf x.x3 x.x2 x.x1 x.x0

/-- R156: EncryptBlock. -/
def encryptBlock (keys : RoundKeys) (src : Block) : Block :=
  reverseBlock (rounds keys.toList (wordsOf src))

/-- R157: DecryptBlock, the same transform; the caller passes the decryption keys. -/
def decryptBlock (keys : RoundKeys) (src : Block) : Block := encryptBlock keys src

/-- R160: entry `x` of the merged table `Tj`, `Tj(x) = L(SBOX(x) << (24 - 8j))`. -/
def tTable (j : Nat) (x : Byte) : Word := diffuse ((sbox x).zeroExtend 32 <<< (24 - 8 * j))

/-- R160: the table-driven form of T. -/
def roundTByTables (a : Word) : Word :=
  tTable 0 (byteOf a 0) ^^^ tTable 1 (byteOf a 1) ^^^ tTable 2 (byteOf a 2) ^^^ tTable 3 (byteOf a 3)

end Sys2Proof.Machine
end

