-- ==== Sys2Proof/Machine/AccelRound.lean ====
section
/-! DEFINITION. The Accelerated Round Engine (spec/42_accelerated_round.md R182 to R196): the isomorphism's
nibble tables, the vector primitives, the AES instruction, the four-lane round and the four-block transform. -/

namespace Sys2Proof.Machine

/-- The bits 3:0 of a byte, as an index. -/
def lowNibble (x : Byte) : Nat := (x.extractLsb' 0 4).toNat

/-- The bits 7:4 of a byte, as an index. -/
def highNibble (x : Byte) : Nat := (x.extractLsb' 4 4).toNat

theorem lowNibble_lt (x : Byte) : lowNibble x < 16 := (x.extractLsb' 0 4).isLt

theorem highNibble_lt (x : Byte) : highNibble x < 16 := (x.extractLsb' 4 4).isLt

/-- The vector of sixteen listed bytes, byte 0 first. -/
def vec16 (b0 b1 b2 b3 b4 b5 b6 b7 b8 b9 b10 b11 b12 b13 b14 b15 : Byte) : V128 :=
  #v[b0, b1, b2, b3, b4, b5, b6, b7, b8, b9, b10, b11, b12, b13, b14, b15]

/-- R182: M1L[n] = A_in(n) ^ c_in. -/
def tableM1L : V128 :=
  vec16 0x01 0x07 0x72 0x74 0xE4 0xE2 0x97 0x91 0x57 0x51 0x24 0x22 0xB2 0xB4 0xC1 0xC7

/-- R182: M1H[n] = A_in(n << 4). -/
def tableM1H : V128 :=
  vec16 0x00 0xA2 0x49 0xEB 0x09 0xAB 0x40 0xE2 0x12 0xB0 0x5B 0xF9 0x1B 0xB9 0x52 0xF0

/-- R183: M2L[n] = A_out(n) ^ c_out. -/
def tableM2L : V128 :=
  vec16 0x34 0x08 0x9D 0xA1 0xCE 0xF2 0x67 0x5B 0x82 0xBE 0x2B 0x17 0x78 0x44 0xD1 0xED

/-- R183: M2H[n] = A_out(n << 4). -/
def tableM2H : V128 :=
  vec16 0x00 0xDC 0xAF 0x73 0xDD 0x01 0x72 0xAE 0xBF 0x63 0x10 0xCC 0x62 0xBE 0xCD 0x11

/-- R184: the accelerated byte substitution SBOX_A. -/
def sboxA (x : Byte) : Byte :=
  let s := aesSbox (tableM1L[lowNibble x]'(lowNibble_lt x) ^^^ tableM1H[highNibble x]'(highNibble_lt x))
  tableM2L[lowNibble s]'(lowNibble_lt s) ^^^ tableM2H[highNibble s]'(highNibble_lt s)

/-- R185: the check that the rule asks of a model that transcribes the tables of R182 and R183: SBOX_A gives SBOX on each
of the 256 inputs. -/
def sboxACheck : Bool :=
  (List.range 256).all fun n => decide (sboxA (BitVec.ofNat 8 n) = sbox (BitVec.ofNat 8 n))

/-- R185: the transcribed tables pass the check. -/
theorem sboxACheck_holds : sboxACheck = true := by decide +kernel

/-- R185: `SBOX_A(x) = SBOX(x)` for every byte. -/
theorem sboxA_eq_sbox (x : Byte) : sboxA x = sbox x := by
  have h := List.all_eq_true.mp sboxACheck_holds x.toNat (List.mem_range.mpr x.isLt)
  simpa using h

/-- R186: `a ^ b`, byte by byte. -/
def vxor (a b : V128) : V128 := tabulate fun i => a[i] ^^^ b[i]

/-- R186: `a & b`, byte by byte. -/
def vand (a b : V128) : V128 := tabulate fun i => a[i] &&& b[i]

/-- R186: `andn(a, b)`, byte by byte `(~a) & b`. -/
def vandn (a b : V128) : V128 := tabulate fun i => ~~~a[i] &&& b[i]

/-- R186: the constant NM. -/
def maskNM : V128 := Vector.replicate 16 0x0F#8

/-- The 8-byte half `h` of a vector (0 or 1) as a little-endian u64 (R186). -/
def vhalf (a : V128) (h : Fin 2) : U64 :=
  a[8 * h.val + 7] ++ a[8 * h.val + 6] ++ a[8 * h.val + 5] ++ a[8 * h.val + 4]
    ++ a[8 * h.val + 3] ++ a[8 * h.val + 2] ++ a[8 * h.val + 1] ++ a[8 * h.val]

/-- R186: `srl64_4(a)`, each 8-byte half shifted right by 4 bits. -/
def srl64x4 (a : V128) : V128 :=
  tabulate fun i => ((if i.val < 8 then vhalf a 0 else vhalf a 1) >>> 4).extractLsb' (8 * (i.val % 8)) 8

/-- R186: `pshufb(t, m)`. -/
def pshufb (t m : V128) : V128 :=
  tabulate fun i => if m[i].msb then 0 else t[lowNibble m[i]]'(lowNibble_lt m[i])

/-- R190: byte `k` of a lane, `k = 0` the least significant byte of the word. -/
def laneByte (w : Word) (k : Nat) : Byte := w.extractLsb' (8 * k) 8

/-- R190: lane `b` of a vector, `v[4b+3] ++ v[4b+2] ++ v[4b+1] ++ v[4b]`. -/
def lane (v : V128) (b : Fin 4) : Word :=
  wordOf v[4 * b.val + 3] v[4 * b.val + 2] v[4 * b.val + 1] v[4 * b.val]

/-- R190: the vector with the given lanes. -/
def ofLanes (w : Words4) : V128 :=
  tabulate fun i => laneByte (w.get (i.val / 4)) (i.val % 4)

/-- R186: `bcast(w)`. -/
def bcast (w : Word) : V128 := ofLanes ⟨w, w, w, w⟩

/-- R187: the permutation SR of ShiftRows. -/
def shiftRowsSR : V128 := vec16 0 5 10 15 4 9 14 3 8 13 2 7 12 1 6 11

/-- R188: the inverse permutation ISR. -/
def shiftRowsISR : V128 := vec16 0 13 10 7 4 1 14 11 8 5 2 15 12 9 6 3

/-- R187: `SubBytes(v)[i] = AES_S(v[i])`. -/
def subBytes (v : V128) : V128 := tabulate fun i => aesSbox v[i]

/-- R187: `ShiftRows(v)[i] = v[SR[i]]`. -/
def shiftRows (v : V128) : V128 := tabulate fun i => v[lowNibble shiftRowsSR[i]]'(lowNibble_lt _)

/-- R187: the AES instruction, `AESENCLAST(state, rk) = ShiftRows(SubBytes(state)) ^ rk`. -/
def aesenclast (state rk : V128) : V128 := vxor (shiftRows (subBytes state)) rk

/-- R189: the vector substitution SBOX16. -/
def sbox16 (x : V128) : V128 :=
  let y1 := vxor (pshufb tableM1L (vand x maskNM)) (pshufb tableM1H (vand (srl64x4 x) maskNM))
  let y2 := pshufb y1 shiftRowsISR
  let y3 := aesenclast y2 maskNM
  vxor (pshufb tableM2L (vandn y3 maskNM)) (pshufb tableM2H (vand (srl64x4 y3) maskNM))

/-- R191: the byte permutations of the rotations by 8, 16 and 24. -/
def maskROT8 : V128 := vec16 3 0 1 2 7 4 5 6 11 8 9 10 15 12 13 14

@[inherit_doc maskROT8]
def maskROT16 : V128 := vec16 2 3 0 1 6 7 4 5 10 11 8 9 14 15 12 13

@[inherit_doc maskROT8]
def maskROT24 : V128 := vec16 1 2 3 0 5 6 7 4 9 10 11 8 13 14 15 12

/-- R191: the rotation of every lane by 2, as a pair of shifts. -/
def vrotl2 (v : V128) : V128 :=
  let r := fun b : Fin 4 => (lane v b <<< 2) ||| (lane v b >>> 30)
  ofLanes ⟨r 0, r 1, r 2, r 3⟩

/-- R191: the vector diffusion Lvec. -/
def lvec (s : V128) : V128 :=
  vxor (vxor s (pshufb s maskROT24)) (vrotl2 (vxor (vxor s (pshufb s maskROT8)) (pshufb s maskROT16)))

/-- The four state vectors V0..V3, word-sliced: vector `j` holds word `j` of each block (R190). -/
structure Vectors4 where
  v0 : V128
  v1 : V128
  v2 : V128
  v3 : V128
deriving DecidableEq, Repr

/-- R192: the four-lane round. -/
def round4 (v : Vectors4) (rk : Word) : Vectors4 where
  v0 := v.v1
  v1 := v.v2
  v2 := v.v3
  v3 := vxor v.v0 (lvec (sbox16 (vxor (vxor (vxor v.v1 v.v2) v.v3) (bcast rk))))

/-- Lane `b` of a buffer: bytes `16b .. 16b+15` (R210). -/
def laneBlock (buf : Buffer) (b : Fin 4) : Block := tabulate fun i => buf[16 * b.val + i.val]

/-- The buffer whose lanes are the four given blocks (R210). -/
def bufferOf (b0 b1 b2 b3 : Block) : Buffer :=
  tabulate fun i => (#v[b0, b1, b2, b3][i.val / 16])[i.val % 16]

/-- R190: vector `j` of a buffer, lane `b` holding word `j` of block `b`. -/
def loadVector (src : Buffer) (j : Nat) : V128 :=
  let w := fun b : Fin 4 => (wordsOf (laneBlock src b)).get j
  ofLanes ⟨w 0, w 1, w 2, w 3⟩

/-- R193: the state vectors of a buffer. -/
def loadVectors (src : Buffer) : Vectors4 :=
  ⟨loadVector src 0, loadVector src 1, loadVector src 2, loadVector src 3⟩

/-- R193: the output block of lane `b`, its four words in reverse order. -/
def storeLane (v : Vectors4) (b : Fin 4) : Block :=
  blockOf (lane v.v3 b) (lane v.v2 b) (lane v.v1 b) (lane v.v0 b)

/-- R193: the computation of EncryptFourBlocks. -/
def fourBlocks (keys : RoundKeys) (src : Buffer) : Buffer :=
  let v := keys.toList.foldl round4 (loadVectors src)
  bufferOf (storeLane v 0) (storeLane v 1) (storeLane v 2) (storeLane v 3)

/-- R193, R196: EncryptFourBlocks; none when CAP_AES = 0, which is never a value (ACCEL_UNSUPPORTED). -/
def encryptFourBlocks (capAes : Bool) (keys : RoundKeys) (src : Buffer) : Option Buffer :=
  if capAes then some (fourBlocks keys src) else none

/-- R194: DecryptFourBlocks, the same transform; the caller passes the decryption keys. -/
def decryptFourBlocks (capAes : Bool) (keys : RoundKeys) (src : Buffer) : Option Buffer :=
  encryptFourBlocks capAes keys src

end Sys2Proof.Machine
end

