-- ==== Sys2Proof/Config.lean ====
section
/-! DEFINITION. The implementation parameters of spec/00_scope.md R9 that a run fixes, as plain data, and
the model's one free value. The parameters stand in `State.platform` (log entry 1), so that a statement
about every state is a statement about every platform. -/

namespace Sys2Proof

/-- The kind of a host-memory access of the engine (spec/20_memory.md R70). -/
inductive AccessKind where
  | read
  | write
deriving DecidableEq, Repr

/-- One entry of the plain-data form of MemAdmit: the accesses of kind `kind` that start at an address from
`first` to `last` and are `minLen` to `maxLen` bytes long (DEDUCED, log entry 2). -/
structure AdmitWindow where
  kind : AccessKind
  first : Nat
  last : Nat
  minLen : Nat
  maxLen : Nat
deriving DecidableEq, Repr

/-- The open parameters of R9 that no step changes: CAP_AES (R45), MMIO_BASE (R31) and MemAdmit (R70). The
fourth, NSLOTS, is the length of `State.slots`. -/
structure Platform where
  /-- CAP_AES: the hardware AES substitution instruction is available (R45). -/
  capAes : Bool
  /-- MMIO_BASE: the host address of the engine's register block (R31). -/
  mmioBase : U64
  /-- MemAdmit, as the list of accesses it lets succeed outside the register block (R70, R83). -/
  windows : List AdmitWindow
deriving DecidableEq, Repr

/-- The platform of `State.reset` (DESIGN CHOICE, log entry 1): CAP_AES = 0, MMIO_BASE = F0000000 and every
access outside the register block admitted, as the programs of spec/95_test_vectors.md take it. -/
def Platform.initial : Platform where
  capAes := false
  mmioBase := 0xF0000000#64
  windows := [⟨.read, 0, addressSpace, 0, addressSpace⟩, ⟨.write, 0, addressSpace, 0, addressSpace⟩]

/-- NSLOTS of `State.reset` (DESIGN CHOICE, log entry 1): 4, as spec/95_test_vectors.md section 2.6 takes it. -/
def Platform.initialSlots : Nat := 4

/-- FREE VALUE (log entry 6): what WR holds after a command that used it. spec/10_state.md R46 says that a
model may give it any value; nothing in Lean constrains this one. The argument is `State.draws`. -/
opaque Config.deadWr : Nat → Buffer

end Sys2Proof
end

