-- ==== Sys2Proof/Machine/State.lean ====
section
/-! DEFINITION. The state of the engine and its host (spec/10_state.md), as plain data: the host registers
(R30 to R36), the instance slots (R40), the hidden state (R44, R46, R47), host memory (R70), the platform
parameters of the run (R9), the host accesses still to come (R8, R292) and the values the host has read (R291). -/

namespace Sys2Proof.Machine

/-- STATUS without its reserved bits, which read 0 (R34). -/
structure Status where
  /-- Bit 0: the engine is in the fault state (R253, R254). -/
  fault : Bool
  /-- Bit 1: the last command completed with a recoverable error (R252). -/
  err : Bool
  /-- Bits 15:8: the fault cause or error code (R251). -/
  code : Byte
deriving DecidableEq, Repr

/-- The six operand registers (R30). -/
inductive OpReg where
  | keyAddr
  | keyLen
  | srcAddr
  | srcLen
  | dstAddr
  | dstLen
deriving DecidableEq, Repr

/-- An operand register: its value and its hidden flag WRITTEN (R32). -/
structure OperandReg where
  value : U64
  written : Bool
deriving DecidableEq, Repr

/-- The operand register file (R30). -/
structure Operands where
  keyAddr : OperandReg
  keyLen : OperandReg
  srcAddr : OperandReg
  srcLen : OperandReg
  dstAddr : OperandReg
  dstLen : OperandReg
deriving DecidableEq, Repr

/-- The engine an instance is bound to: the field TAG (R40), 0 = GENERIC and 1 = ACCEL. -/
inductive Tag where
  | generic
  | accel
deriving DecidableEq, Repr

/-- ENGINE_SEL (R44): the cached dispatch decision. The fourth encoding, 3, never occurs. -/
inductive EngineSel where
  | unset
  | generic
  | accel
deriving DecidableEq, Repr

/-- One cipher-instance slot (R40). -/
structure Slot where
  valid : Bool
  tag : Tag
  encRk : RoundKeys
  decRk : RoundKeys
deriving DecidableEq, Repr

/-- What the host register at an offset is (R31). -/
inductive HostReg where
  | cmd
  | status
  | result
  | faultCmd
  | operand (r : OpReg)
  | reserved
deriving DecidableEq, Repr

/-- One interaction of the host with the engine or with host memory (R292). The engine does not look at which
host agent makes it (R86). -/
inductive HostAccess where
  /-- A store of `bytes` bytes of the bus value `value` to a register address (R37, R110 `wr`, `cmd`). -/
  | writeReg (addr : U64) (bytes : Nat) (value : U64)
  /-- A load of `bytes` bytes from a register address (R37, R110 `rd`). -/
  | readReg (addr : U64) (bytes : Nat)
  /-- Host stores of the listed bytes at `addr`, `addr + 1`, ... (R110 `mem`). -/
  | storeBytes (addr : U64) (data : List Byte)
  /-- Host loads of the `n` bytes from `addr` on (R291). -/
  | loadBytes (addr : U64) (n : Nat)
  /-- The platform asserts RST (R280). -/
  | rst
deriving DecidableEq, Repr

/-- A value the host has read (R291). -/
inductive HostRead where
  /-- The value of a register. -/
  | reg (value : U64)
  /-- Bytes of host memory. -/
  | bytes (data : List Byte)
deriving DecidableEq, Repr

/-- Host memory: (address, byte) pairs, addresses strictly rising, none listed with the byte an unlisted
address reads as (R70). -/
abbrev Memory := List Host.Cell

/-- What a byte of host memory reads as before anything has written it: 0 (DESIGN CHOICE, log entry 5). -/
abbrev unlistedByte : Byte := 0#8

/-- The addresses of a memory strictly rise, starting from `lo`. -/
def Memory.risesFrom : Nat → Memory → Bool
  | _, [] => true
  | lo, (a, _) :: m => decide (lo ≤ a) && Memory.risesFrom (a + 1) m

/-- The canonical form: addresses strictly rising and below `2^64`, no entry an unlisted address would read as. -/
def Memory.wf (m : Memory) : Bool :=
  Memory.risesFrom 0 m && m.all (fun c => decide (c.1 < addressSpace) && decide (c.2 ≠ unlistedByte))

/-- The state of the machine. -/
structure State where
  /-- STATUS (R34). -/
  status : Status
  /-- RESULT (R35). -/
  result : U64
  /-- FAULT_CMD (R36). -/
  faultCmd : U64
  /-- KEY_ADDR .. DST_LEN with their WRITTEN flags (R30, R32). -/
  operands : Operands
  /-- The instance slots; NSLOTS is their number (R40). -/
  slots : List Slot
  /-- ENGINE_SEL (R44). -/
  engineSel : EngineSel
  /-- The Working Register WR (R46). -/
  wr : Buffer
  /-- Host memory (R70). -/
  mem : Memory
  /-- The parameters of the run: CAP_AES, MMIO_BASE and MemAdmit (R9); no step changes them (log entry 1). -/
  platform : Platform
  /-- The host accesses still to come, in the one total order of spec/20_memory.md R85 (log entry 3). -/
  inbox : List HostAccess
  /-- The values the host has read so far, oldest first (R291; log entry 7). -/
  reads : List HostRead
  /-- MODEL'S OWN: how many free values have been drawn (log entry 6). -/
  draws : Nat
deriving DecidableEq, Repr

/-- What stops the machine with a fault. The engine's own misuse faults are no such stop: they are the sticky
fault state, a next state (R253). -/
inductive Fault where
  /-- Raised by a host load or store of bytes that runs past address `2^64 - 1`, which does not exist (R70).
  Safe: no claim speaks of what follows (log entry 9). -/
  | noSuchAddress
deriving DecidableEq, Repr

/-- What the machine gives no meaning. -/
inductive Refusal where
  /-- Raised by an arm of `exec` whose command has no meaning yet; none is left. Safe. -/
  | notModelled (mnemonic : String)
  /-- Raised by a host access of the register block that is not an aligned 64-bit access to an offset of R31, and
  by a register access outside the block (R37; log entry 8). Safe: the spec refuses the access. -/
  | badRegisterAccess
  /-- Raised by a host read of an operand register whose WRITTEN flag is clear. Safe: the spec itself refuses the
  access (R32: "the model refuses it"; 92_eei_decisions.md D19; 93_implementation_defined.md U12). -/
  | unwrittenOperandRead
deriving DecidableEq, Repr

/-- An operand register after reset: WRITTEN = 0; its value is unspecified and unreadable, 0 here
(R49; DESIGN CHOICE, log entry 4). -/
def OperandReg.reset : OperandReg where
  value := 0
  written := false

/-- The operand registers after reset (R49). -/
def Operands.reset : Operands where
  keyAddr := OperandReg.reset
  keyLen := OperandReg.reset
  srcAddr := OperandReg.reset
  srcLen := OperandReg.reset
  dstAddr := OperandReg.reset
  dstLen := OperandReg.reset

/-- A slot after reset: VALID = 0; TAG and the round keys are unspecified and unreadable, GENERIC and 0 here
(R49; DESIGN CHOICE, log entry 4). -/
def Slot.reset : Slot where
  valid := false
  tag := .generic
  encRk := Vector.replicate 32 0
  decRk := Vector.replicate 32 0

/-- The machine after reset on a platform with `nslots` slots (R49): host memory lists nothing (log entry 5), no
host access is waiting (log entry 3), and WR, which is unspecified, is 0 (DESIGN CHOICE, log entry 4). -/
def State.resetOn (p : Platform) (nslots : Nat) : State where
  status := ⟨false, false, 0⟩
  result := 0
  faultCmd := 0
  operands := Operands.reset
  slots := List.replicate nslots Slot.reset
  engineSel := .unset
  wr := Vector.replicate 64 0
  mem := []
  platform := p
  inbox := []
  reads := []
  draws := 0

/-- The machine right after reset (R49), on the platform that log entry 1 names. -/
def State.reset : State := State.resetOn Platform.initial Platform.initialSlots

end Sys2Proof.Machine
end

