-- ==== Sys2Proof/Machine/Flags.lean ====
section
/-! DEFINITION. STATUS: its cause codes (spec/60_exceptions.md R251), its value as a register
(spec/10_state.md R34), and the four ways a command changes it (R223, R252, R253). -/

namespace Sys2Proof.Machine

/-- The causes of a fault (R251). -/
inductive FaultCause where
  | illegalCommand
  | badSlot
  | uninitOperand
  | noInstance
  | srcShort
  | dstShort
  | addrRange
  | overlap
  | busError
  | accelUnsupported
  | internal
deriving DecidableEq, Repr

/-- The causes of a recoverable error (R251). -/
inductive ErrorCause where
  | keySize
deriving DecidableEq, Repr

/-- CODE of a fault cause (R251). -/
def FaultCause.code : FaultCause → Byte
  | .illegalCommand => 0x01#8
  | .badSlot => 0x02#8
  | .uninitOperand => 0x03#8
  | .noInstance => 0x04#8
  | .srcShort => 0x05#8
  | .dstShort => 0x06#8
  | .addrRange => 0x07#8
  | .overlap => 0x08#8
  | .busError => 0x09#8
  | .accelUnsupported => 0x0A#8
  | .internal => 0x0B#8

/-- CODE of an error cause (R251). -/
def ErrorCause.code : ErrorCause → Byte
  | .keySize => 0x20#8

/-- STATUS as the host reads it (R34): FAULT in bit 0, ERR in bit 1, CODE in bits 15:8, every other bit 0. -/
def Status.word (st : Status) : U64 :=
  (st.code.setWidth 64 <<< 8) ||| ((BitVec.ofBool st.err).setWidth 64 <<< 1) ||| (BitVec.ofBool st.fault).setWidth 64

/-- R223: the acceptance of a command clears ERR and CODE. -/
def Status.accepted (st : Status) : Status where
  fault := st.fault
  err := false
  code := 0

/-- R253: a fault sets FAULT and CODE and clears ERR. -/
def Status.faulted (c : FaultCause) : Status where
  fault := true
  err := false
  code := c.code

/-- R252: an error sets ERR and CODE; FAULT stays as it is. -/
def Status.errored (st : Status) (c : ErrorCause) : Status where
  fault := st.fault
  err := true
  code := c.code

end Sys2Proof.Machine
end

