-- ==== Sys2Proof/Machine/Ops.lean ====
section
/-! DEFINITION. The named operations over the state: host memory (spec/20_memory.md), operand registers
(spec/10_state.md R30, R32), instance slots (R40, R42), RESULT, the acceptance of a command (R223), taking a fault
(R253), completing with an error (R252), and reset, the only return from a fault (R257, R280). -/

namespace Sys2Proof.Machine

/-! ### Host memory -/

/-- The byte at an address (R70, R82). -/
def Memory.read : Memory → Nat → Byte
  | [], _ => unlistedByte
  | (k, v) :: m, a => if k = a then v else Memory.read m a

/-- A cell in front of a memory, left out when it holds what an unlisted address reads as. -/
def Memory.consCell (a : Nat) (v : Byte) (m : Memory) : Memory :=
  if v = unlistedByte then m else (a, v) :: m

/-- Write one byte; the canonical form is kept (R70, R82). -/
def Memory.write : Memory → Nat → Byte → Memory
  | [], a, v => Memory.consCell a v []
  | (k, w) :: m, a, v =>
    if a < k then Memory.consCell a v ((k, w) :: m)
    else if a = k then Memory.consCell a v m
    else (k, w) :: Memory.write m a v

/-- The `n` bytes from address `a` on, in ascending order: `MemRead(a, n)` (R13, R73). -/
def Memory.readBytes (m : Memory) (a : Nat) : Nat → List Byte
  | 0 => []
  | n + 1 => m.read a :: Memory.readBytes m (a + 1) n

/-- Write the listed bytes from address `a` on, in ascending order: `MemWrite(a, n, v)` (R13, R73). -/
def Memory.writeBytes (m : Memory) (a : Nat) : List Byte → Memory
  | [] => m
  | b :: bs => Memory.writeBytes (m.write a b) (a + 1) bs

/-- `MemRead(a, 16)` as a block (R71). -/
def Memory.readBlock (m : Memory) (a : Nat) : Block := tabulate fun i => m.read (a + i.val)

/-- `MemWrite(a, 16, b)` (R71). -/
def Memory.writeBlock (m : Memory) (a : Nat) (b : Block) : Memory := m.writeBytes a b.toList

/-! ### Address checks -/

/-- The ranges `[a, a + n)` and `[b, b + k)` share a byte. -/
def rangesMeet (a n b k : Nat) : Bool := decide (a < b + k) && decide (b < a + n) && decide (0 < n) && decide (0 < k)

/-- The size of the register block in bytes (R31). -/
abbrev registerBlockBytes : Nat := 256

/-- The range `[a, a + n)` meets the register block `[MMIO_BASE, MMIO_BASE + 256)` (R83). -/
def meetsRegisterBlock (p : Platform) (a n : Nat) : Bool :=
  rangesMeet a n p.mmioBase.toNat registerBlockBytes

/-- A window admits an access. -/
def windowAdmits (w : AdmitWindow) (a n : Nat) (k : AccessKind) : Bool :=
  decide (w.kind = k) && decide (w.first ≤ a) && decide (a ≤ w.last) && decide (w.minLen ≤ n) && decide (n ≤ w.maxLen)

/-- `MemAdmit(a, n, kind)`: false over the register block (R83), otherwise what the platform's windows say (R70). -/
def memAdmit (p : Platform) (a n : Nat) (k : AccessKind) : Bool :=
  !meetsRegisterBlock p a n && p.windows.any (fun w => windowAdmits w a n k)

/-- R77: a buffer of `n` bytes at `a` is in range, without wrap-around. -/
def inRange (a n : Nat) : Bool := decide (a + n ≤ addressSpace)

/-- R80: the 16-byte ranges at `s` and `d` share some but not all bytes. -/
def inexactOverlap (s d : Nat) : Bool :=
  decide (s < d + 16) && decide (d < s + 16) && decide (s ≠ d)

/-! ### Registers -/

/-- The operand register `r` (R30). -/
def Operands.get (o : Operands) : OpReg → OperandReg
  | .keyAddr => o.keyAddr
  | .keyLen => o.keyLen
  | .srcAddr => o.srcAddr
  | .srcLen => o.srcLen
  | .dstAddr => o.dstAddr
  | .dstLen => o.dstLen

/-- Replace the operand register `r`. -/
def Operands.set (o : Operands) (r : OpReg) (v : OperandReg) : Operands :=
  match r with
  | .keyAddr => { o with keyAddr := v }
  | .keyLen => { o with keyLen := v }
  | .srcAddr => { o with srcAddr := v }
  | .srcLen => { o with srcLen := v }
  | .dstAddr => { o with dstAddr := v }
  | .dstLen => { o with dstLen := v }

/-- `x[r]` of an operand register (R13). -/
def State.operand (s : State) (r : OpReg) : U64 := (s.operands.get r).value

/-- `x[r]` as the natural number the rules compute with (R11, R108). -/
def State.operandNat (s : State) (r : OpReg) : Nat := (s.operand r).toNat

/-- WRITTEN(r) (R32). -/
def State.written (s : State) (r : OpReg) : Bool := (s.operands.get r).written

/-- A host write of an operand register: the value, and WRITTEN set (R30, R32). -/
def State.writeOperand (s : State) (r : OpReg) (v : U64) : State :=
  { s with operands := s.operands.set r ⟨v, true⟩ }

/-- `x[RESULT] <- v` (R35). -/
def State.setResult (s : State) (v : U64) : State := { s with result := v }

/-- WR <- `b` (R46). -/
def State.setWr (s : State) (b : Buffer) : State := { s with wr := b }

/-- The end of a command that used WR: from here on WR holds any value (R46; log entry 6). -/
def State.releaseWr (s : State) : State := { s with wr := Config.deadWr s.draws, draws := s.draws + 1 }

/-- `MemWrite(a, 16, b)` on the state. -/
def State.storeBlock (s : State) (a : Nat) (b : Block) : State := { s with mem := s.mem.writeBlock a b }

/-! ### Instance slots -/

/-- NSLOTS (R9, R40). -/
def State.nslots (s : State) : Nat := s.slots.length

/-- `slot[n]` (R40); a slot that does not exist holds no instance. -/
def State.slot (s : State) (n : Nat) : Slot := s.slots.getD n Slot.reset

/-- `slot[n] <- v` (R13). -/
def State.setSlot (s : State) (n : Nat) (v : Slot) : State := { s with slots := s.slots.set n v }

/-- `slot[n].VALID <- 0` (R42). -/
def State.invalidate (s : State) (n : Nat) : State := s.setSlot n { s.slot n with valid := false }

/-! ### The outcome of a command -/

/-- R223: a command is accepted. -/
def State.accept (s : State) : State := { s with status := s.status.accepted }

/-- R253: `raise Fault(c)` in the command whose word is `v`: STATUS and FAULT_CMD, and nothing else. -/
def State.raiseFault (s : State) (c : FaultCause) (v : U64) : State :=
  { s with status := Status.faulted c, faultCmd := v }

/-- R252: `return Error(c, value)`. -/
def State.completeError (s : State) (c : ErrorCause) (v : U64) : State :=
  { s with status := s.status.errored c, result := v }

/-- R280, R282: the reset event. Every piece of engine state takes its value of R49; host memory, the platform, the
host's own side and the model's counter of free values stay. It is the only return from a fault (R257). -/
def State.resetEvent (s : State) : State :=
  { State.resetOn s.platform s.nslots with mem := s.mem, inbox := s.inbox, reads := s.reads, draws := s.draws }

end Sys2Proof.Machine
end

