-- ==== Sys2Proof/Machine/BatchAdapter.lean ====
section
/-! DEFINITION. The Batch Adapter (spec/43_batch_adapter.md R210 to R212): one block through the four-block
engine, by way of the Working Register. -/

namespace Sys2Proof.Machine

/-- The direction of a transform: which of the two four-block contracts is called (R193, R194). -/
inductive Direction where
  | encrypt
  | decrypt
deriving DecidableEq, Repr

/-- R210: Pack1, the block in lane 0 and zeros in lanes 1 to 3. -/
def pack1 (block : Block) : Buffer := tabulate fun i => if h : i.val < 16 then block[i.val] else 0

/-- R211: Unpack1, lane 0. -/
def unpack1 (buf : Buffer) : Block := tabulate fun i => buf[i.val]

/-- `zeros(64)` (R212). -/
def zeros64 : Buffer := Vector.replicate 64 0

/-- The four-block engine in a direction: R193 for encryption, R194 for decryption. -/
def fourBlocksOf (d : Direction) (capAes : Bool) (keys : RoundKeys) (src : Buffer) : Option Buffer :=
  match d with
  | .encrypt => encryptFourBlocks capAes keys src
  | .decrypt => decryptFourBlocks capAes keys src

/-- R212: accelSingle, the block and the state it leaves, WR included; none when the four-block engine has no
capability (R196). -/
def accelSingle (d : Direction) (keys : RoundKeys) (p : Block) (s : State) : Option (Block × State) :=
  let s := s.setWr zeros64
  let s := s.setWr (pack1 p)
  match fourBlocksOf d s.platform.capAes keys s.wr with
  | none => none
  | some out =>
    let s := s.setWr out
    some (unpack1 s.wr, s.releaseWr)

end Sys2Proof.Machine
end

