-- ==== Sys2Proof/Machine/KeySchedule.lean ====
section
/-! DEFINITION. The Key Schedule (spec/40_key_schedule.md R130 to R138). -/

namespace Sys2Proof.Machine

/-- R130: the system constants FK[0..3]. -/
def systemFK : Words4 := ⟨0xA3B1BAC6#32, 0x56AA3350#32, 0x677D9197#32, 0xB27022DC#32⟩

/-- R131: `b(n) = (7 * n) mod 256`. -/
def ckByte (n : Nat) : Byte := BitVec.ofNat 8 (7 * n % 256)

/-- R131: the round constant CK[i]. -/
def roundCK (i : Nat) : Word :=
  wordOf (ckByte (4 * i)) (ckByte (4 * i + 1)) (ckByte (4 * i + 2)) (ckByte (4 * i + 3))

/-- R133: the key-schedule linear transform L'. -/
def keyDiffuse (b : Word) : Word := b ^^^ rotl32 b 13 ^^^ rotl32 b 23

/-- R134: the key-schedule round function `T'(A) = L'(tau(A))`. -/
def keyT (a : Word) : Word := keyDiffuse (tau a)

/-- R135: `K[i+4]` from `K[i..i+3]` and the round constant. -/
def nextKey (k : Words4) (ck : Word) : Word :=
  k.x0 ^^^ keyT (k.x1 ^^^ k.x2 ^^^ k.x3 ^^^ ck)

/-- R135: the round keys that the iterations with the listed round constants produce, in order. -/
def scheduleFrom : List Word → Words4 → List Word
  | [], _ => []
  | ck :: cks, k => nextKey k ck :: scheduleFrom cks ⟨k.x1, k.x2, k.x3, nextKey k ck⟩

theorem scheduleFrom_length (cks : List Word) (k : Words4) : (scheduleFrom cks k).length = cks.length := by
  induction cks generalizing k with
  | nil => rfl
  | cons ck cks ih => simp [scheduleFrom, ih]

/-- R135: the seed `K[i] = MKi ^ FK[i]`. -/
def seedKeys (mk : Words4) : Words4 where
  x0 := mk.x0 ^^^ systemFK.x0
  x1 := mk.x1 ^^^ systemFK.x1
  x2 := mk.x2 ^^^ systemFK.x2
  x3 := mk.x3 ^^^ systemFK.x3

/-- R135: the encryption round keys of a 16-byte key. -/
def encKeys (key : Block) : RoundKeys :=
  ⟨(scheduleFrom ((List.range 32).map roundCK) (seedKeys (wordsOf key))).toArray, by
    simp [scheduleFrom_length]⟩

/-- R137: the decryption order of a sequence of round keys, `dec[i] = enc[31 - i]`. -/
def mirrorKeys (enc : RoundKeys) : RoundKeys := tabulate fun i => enc[31 - i.val]

/-- R135, R138: Expand of a 16-byte key, `(enc, dec)`. -/
def expandBlock (key : Block) : RoundKeys × RoundKeys := (encKeys key, mirrorKeys (encKeys key))

/-- R135, R136: Expand of a byte string; none when it is not 16 bytes, which is never a value (INTERNAL). -/
def expand (key : List Byte) : Option (RoundKeys × RoundKeys) :=
  if h : key.length = 16 then some (expandBlock ⟨key.toArray, by simpa using h⟩) else none

end Sys2Proof.Machine
end

