-- ==== Sys2Proof/Machine/Operands.lean ====
section
/-! DEFINITION. Operand assembly and the checks of a command's operands, in the order of spec/60_exceptions.md R255
(spec/30_encoding.md R103, R108; spec/44_dispatch_facade.md R224, R226). -/

namespace Sys2Proof.Machine

/-- R108: the operand registers NEWCIPHER reads. -/
def keyOperands : List OpReg := [.keyAddr, .keyLen]

/-- R108: the operand registers ENCRYPT and DECRYPT read. -/
def blockOperands : List OpReg := [.srcAddr, .srcLen, .dstAddr, .dstLen]

/-- Every listed register has WRITTEN set (R32, R108). -/
def State.allWritten (s : State) (rs : List OpReg) : Bool := rs.all s.written

/-- R224: the checks of NEWCIPHER before the key length: BAD_SLOT, UNINIT_OPERAND. -/
def newcipherOperandFault (n : Nat) (s : State) : Option FaultCause :=
  if s.nslots ≤ n then some .badSlot
  else if !s.allWritten keyOperands then some .uninitOperand
  else none

/-- R224: the checks of NEWCIPHER on the key buffer, after the key length: ADDR_RANGE, BUS_ERROR. -/
def keyBufferFault (s : State) : Option FaultCause :=
  if !inRange (s.operandNat .keyAddr) 16 then some .addrRange
  else if !memAdmit s.platform (s.operandNat .keyAddr) 16 .read then some .busError
  else none

/-- R226, R227: the checks of ENCRYPT and DECRYPT. -/
def blockCommandFault (n : Nat) (s : State) : Option FaultCause :=
  let sa := s.operandNat .srcAddr
  let da := s.operandNat .dstAddr
  if s.nslots ≤ n then some .badSlot
  else if !s.allWritten blockOperands then some .uninitOperand
  else if !(s.slot n).valid then some .noInstance
  else if (s.slot n).tag = .accel && !s.platform.capAes then some .accelUnsupported
  else if s.operandNat .srcLen < 16 then some .srcShort
  else if s.operandNat .dstLen < 16 then some .dstShort
  else if !inRange sa 16 || !inRange da 16 then some .addrRange
  else if inexactOverlap sa da then some .overlap
  else if !(memAdmit s.platform sa 16 .read && memAdmit s.platform da 16 .write) then some .busError
  else none

end Sys2Proof.Machine
end

