-- ==== Sys2Proof/Machine/Selector.lean ====
section
/-! DEFINITION. The Capability Dispatcher (spec/44_dispatch_facade.md R220 to R222). -/

namespace Sys2Proof.Machine

/-- R220: SelectEngine. -/
def selectEngine (capAes : Bool) : Tag := if capAes then .accel else .generic

/-- The value of ENGINE_SEL that caches a decision (R44). -/
def EngineSel.ofTag : Tag → EngineSel
  | .generic => .generic
  | .accel => .accel

/-- R221: engineFor, the decision and the state that caches it. -/
def engineFor (s : State) : Tag × State :=
  match s.engineSel with
  | .generic => (.generic, s)
  | .accel => (.accel, s)
  | .unset =>
    let t := selectEngine s.platform.capAes
    (t, { s with engineSel := EngineSel.ofTag t })

end Sys2Proof.Machine
end

