-- ==== Sys2Proof/Machine/Facade.lean ====
section
/-! DEFINITION. The meanings of the four commands (spec/44_dispatch_facade.md R224 to R228), each run after the
command prologue of R223. `raise Fault` records the command word, which is `encode` of the command (log entry 10). -/

namespace Sys2Proof.Machine

/-- R228: the transform of one block with the engine the slot is bound to: the Generic engine directly, or the
Accelerated engine through the Batch Adapter. -/
def transformBlock (d : Direction) (tag : Tag) (keys : RoundKeys) (p : Block) (s : State) : Option (Block × State) :=
  match tag with
  | .generic =>
    match d with
    | .encrypt => some (encryptBlock keys p, s)
    | .decrypt => some (decryptBlock keys p, s)
  | .accel => accelSingle d keys p s

/-- R228: the matching key set, ENC_RK for ENCRYPT and DEC_RK for DECRYPT. -/
def Slot.keys (sl : Slot) : Direction → RoundKeys
  | .encrypt => sl.encRk
  | .decrypt => sl.decRk

/-- R226, R227: the body ENCRYPT and DECRYPT share: the checks, then read, transform, write. -/
def runBlockCommand (d : Direction) (n : Nat) (v : U64) (s : State) : Host.Outcome State Fault Refusal :=
  match blockCommandFault n s with
  | some c => .next (s.raiseFault c v)
  | none =>
    match transformBlock d (s.slot n).tag ((s.slot n).keys d) (s.mem.readBlock (s.operandNat .srcAddr)) s with
    | none => .next (s.raiseFault .accelUnsupported v)
    | some (c, s') => .next ((s'.storeBlock (s.operandNat .dstAddr) c).setResult 0)

/-- R224: NEWCIPHER. -/
def execNewcipher (n : Nat) (s : State) : Host.Outcome State Fault Refusal :=
  match newcipherOperandFault n s with
  | some c => .next (s.raiseFault c (encode (.newcipher n)))
  | none =>
    if s.operandNat .keyLen ≠ 16 then
      .next ((s.invalidate n).completeError .keySize (s.operand .keyLen))
    else
      match keyBufferFault s with
      | some c => .next (s.raiseFault c (encode (.newcipher n)))
      | none =>
        match expand (s.mem.readBytes (s.operandNat .keyAddr) 16) with
        | none => .next (s.raiseFault .internal (encode (.newcipher n)))
        | some (enc, dec) =>
          let (tag, s') := engineFor s
          .next ((s'.setSlot n ⟨true, tag, enc, dec⟩).setResult 0)

/-- R225: BLOCKSIZE. -/
def execBlocksize (s : State) : Host.Outcome State Fault Refusal := .next (s.setResult 16)

/-- R226: ENCRYPT. -/
def execEncrypt (n : Nat) (s : State) : Host.Outcome State Fault Refusal :=
  runBlockCommand .encrypt n (encode (.encrypt n)) s

/-- R227: DECRYPT. -/
def execDecrypt (n : Nat) (s : State) : Host.Outcome State Fault Refusal :=
  runBlockCommand .decrypt n (encode (.decrypt n)) s

end Sys2Proof.Machine
end

