-- ==== Sys2Proof/Machine/Dispatch.lean ====
section
/-! DEFINITION. Which meaning each command has: one arm per constructor of `Instr`
(spec/44_dispatch_facade.md R223, the last line of the prologue). -/

namespace Sys2Proof.Machine

def exec (i : Instr) (s : State) : Host.Outcome State Fault Refusal :=
  match i with
  | .newcipher n => Sys2Proof.Machine.execNewcipher n s
  | .blocksize => Sys2Proof.Machine.execBlocksize s
  | .encrypt n => Sys2Proof.Machine.execEncrypt n s
  | .decrypt n => Sys2Proof.Machine.execDecrypt n s

end Sys2Proof.Machine
end

