-- ==== Sys2Proof/Machine/HostPort.lean ====
section
/-! DEFINITION. The engine's host interface: the register block (spec/10_state.md R31 to R37), the command prologue
(spec/44_dispatch_facade.md R223), the host's own accesses to host memory, and reset (spec/70_reset_and_hazards.md
R280, R292). -/

namespace Sys2Proof.Machine

/-- R31: the register at an offset from MMIO_BASE; none when the offset is no multiple of 8 below 256 (R37). -/
def regAt (off : Nat) : Option HostReg :=
  if off % 8 ≠ 0 ∨ registerBlockBytes ≤ off then none
  else
    match off with
    | 0x00 => some .cmd
    | 0x08 => some .status
    | 0x10 => some .result
    | 0x18 => some .faultCmd
    | 0x20 => some (.operand .keyAddr)
    | 0x28 => some (.operand .keyLen)
    | 0x30 => some (.operand .srcAddr)
    | 0x38 => some (.operand .srcLen)
    | 0x40 => some (.operand .dstAddr)
    | 0x48 => some (.operand .dstLen)
    | _ => some .reserved

/-- R37: the register an access of `bytes` bytes at `addr` reaches; none when the access is not an aligned 64-bit
access to an offset of R31. -/
def regOfAccess (p : Platform) (addr : U64) (bytes : Nat) : Option HostReg :=
  if bytes ≠ 8 ∨ addr.toNat < p.mmioBase.toNat then none
  else regAt (addr.toNat - p.mmioBase.toNat)

/-- R223: a host write of `v` to CMD. -/
def onCmdWrite (v : U64) (s : State) : Host.Outcome State Fault Refusal :=
  if s.status.fault then .next s
  else
    match decode v with
    | .error _ => .next (s.accept.raiseFault .illegalCommand v)
    | .ok i => exec i s.accept

/-- R31, R33 to R36: a host write to a register. -/
def writeRegister (r : HostReg) (v : U64) (s : State) : Host.Outcome State Fault Refusal :=
  match r with
  | .cmd => onCmdWrite v s
  | .operand o => .next (s.writeOperand o v)
  | .status => .next s
  | .result => .next s
  | .faultCmd => .next s
  | .reserved => .next s

/-- R31 to R36: the value a host read of a register gives; none for an operand register never written (R32). -/
def registerValue (r : HostReg) (s : State) : Option U64 :=
  match r with
  | .cmd => some 0
  | .status => some s.status.word
  | .result => some s.result
  | .faultCmd => some s.faultCmd
  | .operand o => if s.written o then some (s.operand o) else none
  | .reserved => some 0

/-- The host receives a value (R291). -/
def State.logRead (s : State) (x : HostRead) : State := { s with reads := s.reads ++ [x] }

/-- The host's own stores to host memory (R110 `mem`, R292 `buffer setup`). A byte access to the register block is
refused (R37); one past the top of memory faults (R70). -/
def storeHostBytes (addr : U64) (data : List Byte) (s : State) : Host.Outcome State Fault Refusal :=
  if meetsRegisterBlock s.platform addr.toNat data.length then .refused .badRegisterAccess
  else if !inRange addr.toNat data.length then .fault .noSuchAddress
  else .next { s with mem := s.mem.writeBytes addr.toNat data }

/-- The host's own loads from host memory (R291), with the same limits. -/
def loadHostBytes (addr : U64) (n : Nat) (s : State) : Host.Outcome State Fault Refusal :=
  if meetsRegisterBlock s.platform addr.toNat n then .refused .badRegisterAccess
  else if !inRange addr.toNat n then .fault .noSuchAddress
  else .next (s.logRead (.bytes (s.mem.readBytes addr.toNat n)))

/-- R292: one interaction of the host. Two kinds of it the spec itself refuses: an access that is no aligned 64-bit access
of the register block (R37), and a read of an operand register whose WRITTEN flag is clear (R32: "has no meaning in the
model: the model refuses it"; R292: "read an operand register with WRITTEN = 0 (refused)"). -/
def takeAccess (x : HostAccess) (s : State) : Host.Outcome State Fault Refusal :=
  match x with
  | .writeReg addr bytes v =>
    match regOfAccess s.platform addr bytes with
    | none => .refused .badRegisterAccess
    | some r => writeRegister r v s
  | .readReg addr bytes =>
    match regOfAccess s.platform addr bytes with
    | none => .refused .badRegisterAccess
    | some r =>
      match registerValue r s with
      | none => .refused .unwrittenOperandRead
      | some v => .next (s.logRead (.reg v))
  | .storeBytes addr data => storeHostBytes addr data s
  | .loadBytes addr n => loadHostBytes addr n s
  | .rst => .next s.resetEvent

/-- The next host access in the total order of R85, if one waits; without one the engine is idle (R264, R281). -/
def takeNext (s : State) : Host.Outcome State Fault Refusal :=
  match s.inbox with
  | [] => .next s
  | x :: rest => takeAccess x { s with inbox := rest }

/-- The host access that issues a command word: an aligned 64-bit store to CMD (R33, R110 `cmd`). -/
def cmdAccess (p : Platform) (v : U64) : HostAccess := .writeReg p.mmioBase 8 v

end Sys2Proof.Machine
end

