-- ==== Sys2Proof/Machine/Step.lean ====
section
/-! DEFINITION. One step of the machine: one host access, in the total order of spec/20_memory.md R85; a command is
one whole step (R76). -/

namespace Sys2Proof.Machine

/-- One step. -/
def step (s : State) : Host.Outcome State Fault Refusal := takeNext s

/-- The state with the command word `w` (its `nbits` low bits) placed where the next step takes its access from: a
host store of it to CMD, in front of the accesses that wait (log entry 3). -/
def State.withFetchWord (s : State) (nbits w : Nat) : State :=
  { s with inbox := cmdAccess s.platform (BitVec.ofNat 64 (w % 2 ^ nbits)) :: s.inbox }

end Sys2Proof.Machine
end

