-- ==== Sys2Proof/Machine/Isomorphism.lean ====
section
/-! DEFINITION. The algebra behind the transcribed tables: the GF(2)-linear maps A_in and A_out by their columns
(spec/42_accelerated_round.md R182, R183), and the parts of the algebraic forms of the two S-boxes (R181;
spec/41_generic_round.md R150). The engine computes with the tables; Sys2Proof/Laws/Tables.lean proves that they agree. -/

namespace Sys2Proof.Machine

/-- A GF(2)-linear map on bytes by its columns: the exclusive-or of the `k`-th listed byte over every `k` with
`x[k] = 1` (R182, R183). -/
def byColumns (cols : List Byte) (x : Byte) : Byte :=
  cols.zipIdx.foldl (fun acc c => acc ^^^ (bif x.getLsbD c.2 then c.1 else 0)) 0

/-- R182: the input map A_in. -/
def mapIn (x : Byte) : Byte := byColumns [0x06, 0x73, 0xE5, 0x56, 0xA2, 0x49, 0x09, 0x12] x

/-- R182: the input offset c_in. -/
def offsetIn : Byte := 0x01

/-- R183: the output map A_out. -/
def mapOut (x : Byte) : Byte := byColumns [0x3C, 0xA9, 0xFA, 0xB6, 0xDC, 0xAF, 0xDD, 0xBF] x

/-- R183: the output offset c_out. -/
def offsetOut : Byte := 0x34

/-- Multiply by `x` in GF(2^8) modulo `x^8 + poly`. -/
def gfDouble (poly a : Byte) : Byte := (a <<< 1) ^^^ (bif a.msb then poly else 0)

/-- The product in GF(2^8) modulo `x^8 + poly`, by Horner's scheme on the bits of `b`. -/
def gfMul (poly a b : Byte) : Byte :=
  (List.range 8).foldr (fun k acc => gfDouble poly acc ^^^ (bif b.getLsbD k then a else 0)) 0

/-- `y` is `inv(x)` in GF(2^8) modulo `x^8 + poly`, with `inv(0) = 0` (R150, R181). -/
def isInverse (poly x y : Byte) : Bool := if x = 0 then decide (y = 0) else decide (gfMul poly x y = 1)

/-- Rotate a byte left by `n < 8` bits. -/
def rotl8 (v : Byte) (n : Nat) : Byte := (v <<< n) ||| (v >>> (8 - n))

/-- R181: Aff. -/
def aesAffine (b : Byte) : Byte := b ^^^ rotl8 b 1 ^^^ rotl8 b 2 ^^^ rotl8 b 3 ^^^ rotl8 b 4 ^^^ 0x63

/-- The parity of a byte: the exclusive-or of its bits. -/
def parity (x : Byte) : Bool :=
  x.getLsbD 0 ^^ x.getLsbD 1 ^^ x.getLsbD 2 ^^ x.getLsbD 3 ^^ x.getLsbD 4 ^^ x.getLsbD 5 ^^ x.getLsbD 6 ^^ x.getLsbD 7

/-- R150: the GF(2)-linear map A of the algebraic form of SBOX, by its rows: output bit `7 - i` is the parity of row `i`
and the input. -/
def sboxLinear (x : Byte) : Byte :=
  [0xD3, 0xE9, 0xF4, 0x7A, 0x3D, 0x9E, 0x4F, 0xA7].foldl
    (fun acc row => (acc <<< 1) ||| (bif parity (row &&& x) then 1 else 0)) 0

end Sys2Proof.Machine
end

