-- ==== Sys2Proof/Machine/Ports.lean ====
section
/-! DEFINITION. The combinational sub-blocks of the engine as functions of their ports: the Key Schedule
(spec/40_key_schedule.md R139), the Generic Round Engine (R161), the Accelerated Round Engine (R199) and the Batch
Adapter (R215). A wide port holds byte 0 in its most significant bits. -/

namespace Sys2Proof.Machine

/-- A byte string on a port of `8 * n` bits, byte 0 in the most significant bits (R139, R161, R199, R215). -/
def portOf {n : Nat} (b : Vector Byte n) : BitVec (8 * n) :=
  b.toList.foldl (fun acc x => (acc <<< 8) ||| x.zeroExtend (8 * n)) 0

/-- The byte string on a port. -/
def ofPort {n : Nat} (w : BitVec (8 * n)) : Vector Byte n :=
  tabulate fun i => w.extractLsb' (8 * (n - 1 - i.val)) 8

/-- R139: key in, (enc_rk, dec_rk) out. -/
def keySchedulePort (key : BitVec 128) : RoundKeys × RoundKeys := expandBlock (ofPort (n := 16) key)

/-- R161: keys and src in, dst out; one sub-block for both directions. -/
def genericPort (keys : RoundKeys) (src : BitVec 128) : BitVec 128 :=
  portOf (encryptBlock keys (ofPort (n := 16) src))

/-- R199: keys, src and cap_aes in, dst out; R196 applies when cap_aes is 0. -/
def accelPort (keys : RoundKeys) (src : BitVec 512) (capAes : Bool) : Option (BitVec 512) :=
  (encryptFourBlocks capAes keys (ofPort (n := 64) src)).map portOf

/-- R215: blk_in in, wr_out out. -/
def packPort (blkIn : BitVec 128) : BitVec 512 := portOf (pack1 (ofPort (n := 16) blkIn))

/-- R215: wr_in in, blk_out out. -/
def unpackPort (wrIn : BitVec 512) : BitVec 128 := portOf (unpack1 (ofPort (n := 64) wrIn))

end Sys2Proof.Machine
end

