-- ==== Sys2Proof/Safety.lean ====
section
/-! DEFINITION. What the claims speak of: the invariants of the machine, a successful end of a run, and what a host
observes (spec/70_reset_and_hazards.md R291). -/

namespace Sys2Proof.Machine

/-- Platform parameters a hardware can have (R9, R31): 1 to 256 slots, and a register block inside the address space. -/
def State.platformOk (s : State) : Bool :=
  decide (1 ≤ s.nslots) && decide (s.nslots ≤ 256) &&
    decide (s.platform.mmioBase.toNat + registerBlockBytes ≤ addressSpace)

/-- R34, R251: FAULT and ERR are never both 1, and CODE is the code of an assigned cause that matches them. -/
def Status.ok (st : Status) : Bool :=
  if st.fault then !st.err && decide (0x01 ≤ st.code.toNat) && decide (st.code.toNat ≤ 0x0B)
  else if st.err then decide (st.code = 0x20#8)
  else decide (st.code = 0)

/-- R41: the round-key mirror of one slot. -/
def Slot.mirrored (sl : Slot) : Bool :=
  !sl.valid || decide (∀ i : Fin 32, sl.decRk[i.val] = sl.encRk[31 - i.val])

/-- R41: the round-key mirror invariant, over all slots. -/
def State.mirrorInv (s : State) : Bool := s.slots.all Slot.mirrored

/-- R44, R222, R285: ENGINE_SEL, once set, is the decision of SelectEngine; a slot that holds an instance is bound to
that decision, and then ENGINE_SEL is set. -/
def State.dispatchInv (s : State) : Bool :=
  (decide (s.engineSel = .unset) || decide (s.engineSel = EngineSel.ofTag (selectEngine s.platform.capAes))) &&
    s.slots.all (fun sl => !sl.valid ||
      (decide (sl.tag = selectEngine s.platform.capAes) && decide (s.engineSel ≠ .unset)))

/-- The invariant of the machine: every step keeps it, and it holds after reset. -/
def State.inv (s : State) : Bool :=
  s.platformOk && s.status.ok && s.mirrorInv && s.dispatchInv && s.mem.wf

/-- The offset of an operand register from MMIO_BASE, as the table of R31 lists it. -/
def OpReg.offset : OpReg → Nat
  | .keyAddr => 0x20
  | .keyLen => 0x28
  | .srcAddr => 0x30
  | .srcLen => 0x38
  | .dstAddr => 0x40
  | .dstLen => 0x48

/-- The conditions under which R224 creates an instance, as conditions on the state alone. -/
abbrev ReadyNewcipher (n : Nat) (s : State) : Prop :=
  n < s.nslots ∧ s.written .keyAddr = true ∧ s.written .keyLen = true ∧ s.operandNat .keyLen = 16 ∧
    s.operandNat .keyAddr + 16 ≤ 2 ^ 64 ∧ memAdmit s.platform (s.operandNat .keyAddr) 16 .read = true

/-- The conditions of R226 that come before the overlap check. -/
abbrev ReadyUpToOverlap (n : Nat) (s : State) : Prop :=
  n < s.nslots ∧
    (s.written .srcAddr = true ∧ s.written .srcLen = true ∧ s.written .dstAddr = true ∧ s.written .dstLen = true) ∧
    (s.slot n).valid = true ∧ ((s.slot n).tag = .accel → s.platform.capAes = true) ∧
    16 ≤ s.operandNat .srcLen ∧ 16 ≤ s.operandNat .dstLen ∧
    s.operandNat .srcAddr + 16 ≤ 2 ^ 64 ∧ s.operandNat .dstAddr + 16 ≤ 2 ^ 64

/-- R80: the two 16-byte ranges are identical or disjoint. -/
abbrev IdenticalOrDisjoint (a b : Nat) : Prop := a = b ∨ a + 16 ≤ b ∨ b + 16 ≤ a

/-- R78: MemAdmit lets the read of the source block and the write of the destination block succeed. -/
abbrev BuffersAdmitted (s : State) : Prop :=
  memAdmit s.platform (s.operandNat .srcAddr) 16 .read = true ∧
    memAdmit s.platform (s.operandNat .dstAddr) 16 .write = true

/-- The conditions under which R226 and R227 transform a block, as conditions on the state alone. -/
abbrev ReadyBlockCommand (n : Nat) (s : State) : Prop :=
  ReadyUpToOverlap n s ∧ IdenticalOrDisjoint (s.operandNat .srcAddr) (s.operandNat .dstAddr) ∧ BuffersAdmitted s

/-- The state a fault with cause `c` in the command with word `v` leaves (R253). -/
def State.faultEntry (s : State) (c : FaultCause) (v : U64) : State :=
  { s with status := ⟨true, false, c.code⟩, faultCmd := v }

/-- R254, R291: a state in which a run can end successfully. -/
def State.successful (s : State) : Bool := !s.status.fault

/-- R291: what a host observes at the end of a run. -/
structure Observation where
  mem : Memory
  status : U64
  result : U64
  faultCmd : U64
  reads : List HostRead
deriving DecidableEq, Repr

@[inherit_doc Observation]
def State.observe (s : State) : Observation := ⟨s.mem, s.status.word, s.result, s.faultCmd, s.reads⟩

/-- A slot without what only its engine tag says; without an instance, nothing of it can be read (R40, R49). -/
def Slot.eraseBackend (sl : Slot) : Slot := if sl.valid then { sl with tag := .generic } else Slot.reset

/-- The state without what tells the two backends apart: CAP_AES, the TAGs, which engine ENGINE_SEL names, WR and the
count of free values (R291: the definition of a run does not say what these hold). -/
def State.eraseBackend (s : State) : State :=
  { s with
    platform := { s.platform with capAes := false }
    slots := s.slots.map Slot.eraseBackend
    engineSel := if s.engineSel = .unset then .unset else .generic
    wr := Vector.replicate 64 0
    draws := 0 }

/-- An outcome with its next state's backend erased. -/
def eraseOutcome : Host.Outcome State Fault Refusal → Host.Outcome State Fault Refusal
  | .next s => .next s.eraseBackend
  | .fault f => .fault f
  | .refused r => .refused r

end Sys2Proof.Machine
end

