-- ==== Sys2Proof/Certificates/Slice0/Obligations.lean ====
section
/-! DEFINITION. The statements for the provers, each a property the rules of spec/ give the machine. -/

open Sys2Proof Sys2Proof.Machine

/-! ### Encoding -/

/-- R102, R105, R110: decoding the word of any well-formed command gives the command back. -/
def Obligations.DecodeOfEncodeIsTheCommand : Prop :=
  ∀ i : Instr, i.wellFormed = true → decode (encode i) = .ok i

/-- R102, R105: a word has one meaning: one that decodes to a command is that command's word, and the command's slot
index fits SLOT. -/
def Obligations.EncodeOfDecodeIsTheWord : Prop :=
  ∀ (v : U64) (i : Instr), decode v = .ok i → i.wellFormed = true ∧ encode i = v

/-- R102, R103: decoding agrees with the match and mask table of R102, and the slot index is bits 15:8. -/
def Obligations.DecodeAgreesWithMatchAndMask : Prop :=
  ∀ (v : U64) (n : Nat),
    (decode v = .ok (.newcipher n) ↔ v &&& 0xFFFFFFFFFFFF00FF#64 = 0x1#64 ∧ n = (v >>> 8).toNat % 256) ∧
    (decode v = .ok .blocksize ↔ v &&& 0xFFFFFFFFFFFFFFFF#64 = 0x2#64) ∧
    (decode v = .ok (.encrypt n) ↔ v &&& 0xFFFFFFFFFFFF00FF#64 = 0x3#64 ∧ n = (v >>> 8).toNat % 256) ∧
    (decode v = .ok (.decrypt n) ↔ v &&& 0xFFFFFFFFFFFF00FF#64 = 0x4#64 ∧ n = (v >>> 8).toNat % 256)

/-- R102, R110: words of each command written out from the encoding table. -/
def Obligations.SpecWordsDecode : Prop :=
  decode 0x0000000000000201#64 = .ok (.newcipher 2) ∧ decode 0x0000000000000002#64 = .ok .blocksize ∧
    decode 0x0000000000000103#64 = .ok (.encrypt 1) ∧ decode 0x000000000000FF04#64 = .ok (.decrypt 255) ∧
    decode 0x0000000000000000#64 = .error .unassignedOpcode ∧
    decode 0x0000000000000102#64 = .error .slotOnBlocksize ∧ decode 0x0000000000010003#64 = .error .reservedBits

/-- R104, R106, R107: a word with a reserved bit set, with an opcode other than 1 to 4, or a BLOCKSIZE word with
SLOT != 0, written to CMD of an engine that is not in the fault state, faults with ILLEGAL_COMMAND. -/
def Obligations.IllegalWordsFault : Prop :=
  ∀ (s : State) (v : U64) (rest : List HostAccess),
    s.inbox = .writeReg s.platform.mmioBase 8 v :: rest → s.status.fault = false →
    ((v >>> 16 ≠ 0 ∨ v.toNat % 256 = 0 ∨ 4 < v.toNat % 256) ∨ (v.toNat % 256 = 2 ∧ v.toNat / 256 % 256 ≠ 0)) →
    step s = .next { s with inbox := rest, status := ⟨true, false, 0x01#8⟩, faultCmd := v }

/-! ### A step -/

/-- R223: a step that takes a host write of `v` to CMD drops it while FAULT = 1; otherwise it clears ERR and CODE and
then faults with ILLEGAL_COMMAND, when `v` is no command, or is `exec` of the decoded command. -/
def Obligations.StepRunsTheDecodedCommand : Prop :=
  ∀ (s : State) (v : U64) (rest : List HostAccess), s.inbox = .writeReg s.platform.mmioBase 8 v :: rest →
    (s.status.fault = true → step s = .next { s with inbox := rest }) ∧
    (s.status.fault = false → ∀ e, decode v = .error e →
      step s = .next ({ s with inbox := rest }.faultEntry .illegalCommand v)) ∧
    (s.status.fault = false → ∀ i, decode v = .ok i →
      step s = exec i { s with inbox := rest, status := ⟨false, false, 0⟩ })

/-- R264, R281: an engine with no host access to take is idle and holds its state. -/
def Obligations.IdleEngineHoldsItsState : Prop :=
  ∀ s : State, s.inbox = [] → step s = .next s

/-- R250, R251, R290: every accepted command ends in one step, in exactly one of success, the KEY_SIZE error and a fault
with an assigned cause. -/
def Obligations.EveryAcceptedCommandEndsInOneOutcome : Prop :=
  ∀ (s : State) (v : U64) (rest : List HostAccess),
    s.inbox = .writeReg s.platform.mmioBase 8 v :: rest → s.status.fault = false →
    ∃ t, step s = .next t ∧ t.inbox = rest ∧
      (t.status = ⟨false, false, 0⟩ ∨ t.status = ⟨false, true, 0x20#8⟩ ∨ ∃ c : FaultCause, t.status = ⟨true, false, c.code⟩)

/-- R258: while FAULT = 1 a command is dropped with no change at all, and no event but reset changes FAULT, CODE,
FAULT_CMD, RESULT, a slot or ENGINE_SEL. -/
def Obligations.FaultsDoNotNest : Prop :=
  ∀ (s : State), s.status.fault = true →
    (∀ v rest, s.inbox = .writeReg s.platform.mmioBase 8 v :: rest → step s = .next { s with inbox := rest }) ∧
    (∀ t, step s = .next t → (∀ rest, s.inbox ≠ .rst :: rest) →
      t.status = s.status ∧ t.faultCmd = s.faultCmd ∧ t.result = s.result ∧ t.slots = s.slots ∧ t.engineSel = s.engineSel)

/-! ### The register block -/

/-- R30, R31, R32: a host write of `v` to an operand register stores `v` and sets its WRITTEN flag, in the fault state
too, and changes nothing else. -/
def Obligations.OperandWriteTakesEffect : Prop :=
  ∀ (s : State) (r : OpReg) (addr v : U64) (rest : List HostAccess),
    addr.toNat = s.platform.mmioBase.toNat + r.offset → s.inbox = .writeReg addr 8 v :: rest →
    ∃ t, step s = .next t ∧ t.operand r = v ∧ t.written r = true ∧
      (∀ q, q ≠ r → t.operand q = s.operand q ∧ t.written q = s.written q) ∧
      t = { s with inbox := rest, operands := t.operands }

/-- R31, R33 to R36: what a host read of each register gives. -/
def Obligations.RegisterReadsGiveTheirValues : Prop :=
  ∀ (s : State) (addr : U64) (off : Nat) (rest : List HostAccess),
    addr.toNat = s.platform.mmioBase.toNat + off → s.inbox = .readReg addr 8 :: rest →
    let got := fun x : U64 => Host.Outcome.next (φ := Fault) (ρ := Refusal)
      { s with inbox := rest, reads := s.reads ++ [.reg x] }
    (off = 0x00 → step s = got 0) ∧ (off = 0x08 → step s = got s.status.word) ∧
    (off = 0x10 → step s = got s.result) ∧ (off = 0x18 → step s = got s.faultCmd) ∧
    (∀ r : OpReg, off = r.offset → s.written r = true → step s = got (s.operand r)) ∧
    (0x50 ≤ off → off ≤ 0xF8 → off % 8 = 0 → step s = got 0)

/-- R32: a host read of an operand register whose WRITTEN flag is clear is refused. -/
def Obligations.UnwrittenOperandReadRefused : Prop :=
  ∀ (s : State) (r : OpReg) (addr : U64) (rest : List HostAccess),
    addr.toNat = s.platform.mmioBase.toNat + r.offset → s.inbox = .readReg addr 8 :: rest → s.written r = false →
    step s = .refused .unwrittenOperandRead

/-- R31, R34, R35, R36: a host write to STATUS, RESULT, FAULT_CMD or a reserved offset is ignored. -/
def Obligations.ReadOnlyWritesIgnored : Prop :=
  ∀ (s : State) (addr v : U64) (off : Nat) (rest : List HostAccess),
    addr.toNat = s.platform.mmioBase.toNat + off → s.inbox = .writeReg addr 8 v :: rest →
    (off = 0x08 ∨ off = 0x10 ∨ off = 0x18 ∨ (0x50 ≤ off ∧ off ≤ 0xF8 ∧ off % 8 = 0)) →
    step s = .next { s with inbox := rest }

/-- R37: an access of the register block that is not 8 bytes wide or not at a multiple of 8 from MMIO_BASE is refused.
That a byte store or load that meets the block is refused as a whole, its bytes outside the block included, is the model's
choice (log entries 3 and 8, DESIGN CHOICE). -/
def Obligations.OtherRegisterAccessesRefused : Prop :=
  ∀ (s : State) (rest : List HostAccess),
    (∀ (addr v : U64) (bytes : Nat), s.platform.mmioBase.toNat ≤ addr.toNat →
      addr.toNat < s.platform.mmioBase.toNat + 256 →
      (bytes ≠ 8 ∨ (addr.toNat - s.platform.mmioBase.toNat) % 8 ≠ 0) →
      (s.inbox = .writeReg addr bytes v :: rest ∨ s.inbox = .readReg addr bytes :: rest) →
      step s = .refused .badRegisterAccess) ∧
    (∀ (addr : U64) (data : List Byte) (n x : Nat),
      (s.inbox = .storeBytes addr data :: rest ∧ n = data.length ∨ s.inbox = .loadBytes addr n :: rest) →
      addr.toNat ≤ x → x < addr.toNat + n →
      s.platform.mmioBase.toNat ≤ x → x < s.platform.mmioBase.toNat + 256 →
      step s = .refused .badRegisterAccess)

/-- R34: the bits of STATUS as the host reads it. -/
def Obligations.StatusWordLayout : Prop :=
  ∀ st : Status, st.word.getLsbD 0 = st.fault ∧ st.word.getLsbD 1 = st.err ∧ st.word.extractLsb' 2 6 = 0 ∧
    st.word.extractLsb' 8 8 = st.code ∧ st.word.extractLsb' 16 48 = 0

/-! ### The commands: results -/

/-- R225: BLOCKSIZE gives RESULT = 16 and writes nothing else, in every state; its word, written to CMD of an engine that
is not in the fault state, does so after the prologue, straight after reset too. A word with its opcode and SLOT != 0 or a
reserved bit set faults with ILLEGAL_COMMAND. -/
def Obligations.BlocksizeReturnsSixteen : Prop :=
  (∀ s : State, exec .blocksize s = .next { s with result := 16 }) ∧
  (∀ (s : State) (rest : List HostAccess), s.inbox = .writeReg s.platform.mmioBase 8 0x2#64 :: rest →
    s.status.fault = false → step s = .next { s with inbox := rest, status := ⟨false, false, 0⟩, result := 16 }) ∧
  (∀ (s : State) (v : U64) (rest : List HostAccess), s.inbox = .writeReg s.platform.mmioBase 8 v :: rest →
    s.status.fault = false → v.toNat % 256 = 2 → v ≠ 0x2#64 →
    step s = .next { s with inbox := rest, status := ⟨true, false, 0x01#8⟩, faultCmd := v })

/-- R224, R221, R222: NEWCIPHER under its conditions puts into slot `n` an instance with the round keys that Expand gives
for the 16 bytes at KEY_ADDR, bound to the cached dispatch decision, which it takes first when none is cached. -/
def Obligations.NewcipherCreatesTheInstance : Prop :=
  ∀ (s : State) (n : Nat), ReadyNewcipher n s →
    ∃ t, exec (.newcipher n) s = .next t ∧
      (t.slot n).valid = true ∧
      (t.slot n).encRk = (expandBlock (s.mem.readBlock (s.operandNat .keyAddr))).1 ∧
      (t.slot n).decRk = (expandBlock (s.mem.readBlock (s.operandNat .keyAddr))).2 ∧
      (s.engineSel = .unset → t.engineSel = EngineSel.ofTag (selectEngine s.platform.capAes)) ∧
      (s.engineSel ≠ .unset → t.engineSel = s.engineSel) ∧
      t.engineSel = EngineSel.ofTag (t.slot n).tag ∧
      t.result = 0 ∧ t.status = s.status ∧ t.faultCmd = s.faultCmd

/-- R224, R252: NEWCIPHER with KEY_LEN != 16 completes with the recoverable error KEY_SIZE: ERR and its code, RESULT =
KEY_LEN, the slot's VALID cleared with its other fields as before, and nothing else. -/
def Obligations.WrongKeyLengthIsARecoverableError : Prop :=
  ∀ (s : State) (n : Nat), n < s.nslots → s.written .keyAddr = true → s.written .keyLen = true →
    s.operandNat .keyLen ≠ 16 →
    ∃ t, exec (.newcipher n) s = .next t ∧ t.status = ⟨s.status.fault, true, 0x20#8⟩ ∧ t.result = s.operand .keyLen ∧
      (t.slot n).valid = false ∧ (∀ k, k ≠ n → t.slot k = s.slot k) ∧
      t.slots = s.slots.set n { s.slot n with valid := false } ∧
      t = { s with status := t.status, result := t.result, slots := t.slots }

/-- R226, R230: ENCRYPT under its conditions writes the encryption of the source block with ENC_RK to the destination,
whichever engine the slot is bound to, and gives RESULT = 0. -/
def Obligations.EncryptWritesTheCiphertext : Prop :=
  ∀ (s : State) (n : Nat), ReadyBlockCommand n s → s.mem.wf = true →
    ∃ t, exec (.encrypt n) s = .next t ∧
      t.mem.readBlock (s.operandNat .dstAddr) =
        encryptBlock (s.slot n).encRk (s.mem.readBlock (s.operandNat .srcAddr)) ∧
      t.result = 0 ∧ t.status = s.status ∧ t.faultCmd = s.faultCmd

/-- R227, R230: DECRYPT likewise, with DEC_RK. -/
def Obligations.DecryptWritesThePlaintext : Prop :=
  ∀ (s : State) (n : Nat), ReadyBlockCommand n s → s.mem.wf = true →
    ∃ t, exec (.decrypt n) s = .next t ∧
      t.mem.readBlock (s.operandNat .dstAddr) =
        decryptBlock (s.slot n).decRk (s.mem.readBlock (s.operandNat .srcAddr)) ∧
      t.result = 0 ∧ t.status = s.status ∧ t.faultCmd = s.faultCmd

/-! ### The commands: faults -/

/-- R253, R256: an accepted command that ends in the fault state changes only STATUS and FAULT_CMD: STATUS holds FAULT and
the code of a cause, FAULT_CMD the word written to CMD. It reads no host memory: it does the same whatever host memory
holds. -/
def Obligations.FaultsArePrecise : Prop :=
  ∀ (s t : State) (v : U64) (rest : List HostAccess),
    s.inbox = .writeReg s.platform.mmioBase 8 v :: rest → s.status.fault = false →
    step s = .next t → t.status.fault = true →
    (∃ c : FaultCause, t = { s with inbox := rest, status := ⟨true, false, c.code⟩, faultCmd := v }) ∧
    ∀ m : Memory, step { s with mem := m } = .next { t with mem := m }

/-- R255, R226: ENCRYPT and DECRYPT report the first cause that applies, in the order of R255, and only that one. -/
def Obligations.BlockCommandFaultPriority : Prop :=
  ∀ (s : State) (n : Nat) (c : FaultCause),
    let sa := s.operandNat .srcAddr
    let da := s.operandNat .dstAddr
    let checks : List (Bool × FaultCause) :=
      [(decide (s.nslots ≤ n), .badSlot),
       (!(s.written .srcAddr && s.written .srcLen && s.written .dstAddr && s.written .dstLen), .uninitOperand),
       (!(s.slot n).valid, .noInstance),
       (decide ((s.slot n).tag = .accel ∧ s.platform.capAes = false), .accelUnsupported),
       (decide (s.operandNat .srcLen < 16), .srcShort),
       (decide (s.operandNat .dstLen < 16), .dstShort),
       (decide (2 ^ 64 < sa + 16 ∨ 2 ^ 64 < da + 16), .addrRange),
       (decide (sa < da + 16 ∧ da < sa + 16 ∧ sa ≠ da), .overlap),
       (!(memAdmit s.platform sa 16 .read && memAdmit s.platform da 16 .write), .busError)]
    (checks.find? (·.1) = some (true, c) →
      exec (.encrypt n) s = .next (s.faultEntry c (encode (.encrypt n))) ∧
      exec (.decrypt n) s = .next (s.faultEntry c (encode (.decrypt n)))) ∧
    (s.status.fault = false → checks.find? (·.1) = none →
      ∃ t u, exec (.encrypt n) s = .next t ∧ t.status.fault = false ∧
        exec (.decrypt n) s = .next u ∧ u.status.fault = false)

/-- R255, R224: NEWCIPHER reports the first cause that applies, in the order of R255, and does not fault when none applies:
on a wrong key length (the KEY_SIZE error) or for a key buffer in range that the platform admits. -/
def Obligations.NewcipherFaultPriority : Prop :=
  ∀ (s : State) (n : Nat),
    let fails := fun c => exec (.newcipher n) s = .next (s.faultEntry c (encode (.newcipher n)))
    let ka := s.operandNat .keyAddr
    let operandsWritten := s.written .keyAddr = true ∧ s.written .keyLen = true
    (s.nslots ≤ n → fails .badSlot) ∧
    (n < s.nslots → ¬operandsWritten → fails .uninitOperand) ∧
    (n < s.nslots → operandsWritten → s.operandNat .keyLen = 16 → 2 ^ 64 < ka + 16 → fails .addrRange) ∧
    (n < s.nslots → operandsWritten → s.operandNat .keyLen = 16 → ka + 16 ≤ 2 ^ 64 →
      memAdmit s.platform ka 16 .read = false → fails .busError) ∧
    (s.status.fault = false → n < s.nslots → operandsWritten →
      (s.operandNat .keyLen ≠ 16 ∨ ka + 16 ≤ 2 ^ 64 ∧ memAdmit s.platform ka 16 .read = true) →
      ∃ t, exec (.newcipher n) s = .next t ∧ t.status.fault = false)

/-- R80: ranges that overlap inexactly fault with OVERLAP, for ENCRYPT and DECRYPT; identical and disjoint ranges are
accepted. -/
def Obligations.InexactOverlapFaults : Prop :=
  ∀ (s : State) (n : Nat), ReadyUpToOverlap n s →
    let sa := s.operandNat .srcAddr
    let da := s.operandNat .dstAddr
    (sa < da + 16 → da < sa + 16 → sa ≠ da →
      ∃ t u, exec (.encrypt n) s = .next t ∧ t = { s with status := ⟨true, false, 0x08#8⟩, faultCmd := t.faultCmd } ∧
        exec (.decrypt n) s = .next u ∧ u = { s with status := ⟨true, false, 0x08#8⟩, faultCmd := u.faultCmd }) ∧
    (IdenticalOrDisjoint sa da → BuffersAdmitted s →
      ∃ t u, exec (.encrypt n) s = .next t ∧ t.status = s.status ∧ exec (.decrypt n) s = .next u ∧ u.status = s.status)

/-- R83: MemAdmit is false for every range that meets the register block, so a command with a buffer that holds a byte of
the block faults with BUS_ERROR. -/
def Obligations.RegisterBlockIsNeverABuffer : Prop :=
  (∀ (p : Platform) (a n x : Nat) (k : AccessKind), a ≤ x → x < a + n → p.mmioBase.toNat ≤ x →
    x < p.mmioBase.toNat + 256 → memAdmit p a n k = false) ∧
  (∀ (s : State) (n x : Nat) (i : Instr), i = .encrypt n ∨ i = .decrypt n → ReadyUpToOverlap n s →
    IdenticalOrDisjoint (s.operandNat .srcAddr) (s.operandNat .dstAddr) →
    (s.operandNat .srcAddr ≤ x ∧ x < s.operandNat .srcAddr + 16 ∨
      s.operandNat .dstAddr ≤ x ∧ x < s.operandNat .dstAddr + 16) →
    s.platform.mmioBase.toNat ≤ x → x < s.platform.mmioBase.toNat + 256 →
    exec i s = .next (s.faultEntry .busError (encode i))) ∧
  (∀ (s : State) (n x : Nat), n < s.nslots → s.written .keyAddr = true → s.written .keyLen = true →
    s.operandNat .keyLen = 16 → s.operandNat .keyAddr + 16 ≤ 2 ^ 64 →
    s.operandNat .keyAddr ≤ x → x < s.operandNat .keyAddr + 16 →
    s.platform.mmioBase.toNat ≤ x → x < s.platform.mmioBase.toNat + 256 →
    exec (.newcipher n) s = .next (s.faultEntry .busError (encode (.newcipher n))))

/-! ### The commands: frames -/

/-- R229, R71: what ENCRYPT and DECRYPT leave unchanged. A fault changes STATUS and FAULT_CMD only; otherwise only the 16
destination bytes, RESULT and the unobservable WR change. -/
def Obligations.BlockCommandFrame : Prop :=
  ∀ (s t : State) (n : Nat) (i : Instr), i = .encrypt n ∨ i = .decrypt n → exec i s = .next t →
    t.operands = s.operands ∧ t.slots = s.slots ∧ t.engineSel = s.engineSel ∧ t.platform = s.platform ∧
    t.inbox = s.inbox ∧ t.reads = s.reads ∧
    ((∃ c : FaultCause, t = { s with status := ⟨true, false, c.code⟩, faultCmd := t.faultCmd }) ∨
     (t.status = s.status ∧ t.faultCmd = s.faultCmd ∧ t.result = 0 ∧
      ∀ a, a < s.operandNat .dstAddr ∨ s.operandNat .dstAddr + 16 ≤ a → t.mem.read a = s.mem.read a))

/-- R224, R42, R71: what NEWCIPHER and BLOCKSIZE leave unchanged: host memory byte for byte, the operand registers, every
slot but NEWCIPHER's own, WR, and, except on a fault, FAULT_CMD; STATUS, except for a fault or the KEY_SIZE error; BLOCKSIZE
also every slot, ENGINE_SEL and STATUS. -/
def Obligations.NewcipherAndBlocksizeFrame : Prop :=
  (∀ (s t : State) (n : Nat), exec (.newcipher n) s = .next t →
    (∀ a, t.mem.read a = s.mem.read a) ∧ t.operands = s.operands ∧ t.wr = s.wr ∧ t.draws = s.draws ∧
    t.platform = s.platform ∧ t.inbox = s.inbox ∧ t.reads = s.reads ∧ t.nslots = s.nslots ∧
    (∀ k, k ≠ n → t.slot k = s.slot k) ∧ (t.engineSel ≠ s.engineSel → s.engineSel = .unset) ∧
    ((∃ c, t = s.faultEntry c (encode (.newcipher n))) ∨
     (t.faultCmd = s.faultCmd ∧ (t.status = s.status ∨ t.status = ⟨s.status.fault, true, 0x20#8⟩)))) ∧
  (∀ s t : State, exec .blocksize s = .next t → t = { s with result := t.result })

/-- R71: ENCRYPT and DECRYPT read no host byte but the 16 at SRC_ADDR, NEWCIPHER none but the 16 at KEY_ADDR: two host
memories that agree there give the same results. -/
def Obligations.CommandsReadOnlyTheirBuffers : Prop :=
  (∀ (s : State) (m : Memory) (n : Nat) (i : Instr), i = .encrypt n ∨ i = .decrypt n → ReadyBlockCommand n s →
    m.readBlock (s.operandNat .srcAddr) = s.mem.readBlock (s.operandNat .srcAddr) → s.mem.wf = true → m.wf = true →
    ∃ t u, exec i s = .next t ∧ exec i { s with mem := m } = .next u ∧ u = { t with mem := u.mem } ∧
      u.mem.readBlock (s.operandNat .dstAddr) = t.mem.readBlock (s.operandNat .dstAddr)) ∧
  (∀ (s : State) (m : Memory) (n : Nat), ReadyNewcipher n s →
    m.readBlock (s.operandNat .keyAddr) = s.mem.readBlock (s.operandNat .keyAddr) →
    ∃ t, exec (.newcipher n) s = .next t ∧ exec (.newcipher n) { s with mem := m } = .next { t with mem := m })

/-! ### The cipher -/

/-- R130, R131, R135: the round keys follow the key-schedule recurrence from the key and the constants. -/
def Obligations.KeyScheduleRecurrence : Prop :=
  ∀ (key : Block) (i : Nat) (h : i < 32),
    let k := fun j : Nat =>
      if j < 4 then (wordsOf key).get j ^^^ systemFK.get j else (encKeys key).toList.getD (j - 4) 0
    (encKeys key)[i] = k i ^^^ keyT (k (i + 1) ^^^ k (i + 2) ^^^ k (i + 3) ^^^ roundCK i)

/-- R137: Expand gives the decryption keys in the mirrored order, for every 16-byte key, and gives no value for any other
length (R136). -/
def Obligations.ExpandMirrorsTheKeys : Prop :=
  (∀ (key : List Byte) (enc dec : RoundKeys), expand key = some (enc, dec) →
    ∀ (i : Nat) (h : i < 32), dec[i] = enc[31 - i]) ∧
  (∀ key : List Byte, (expand key).isSome = true ↔ key.length = 16)

/-- R154, R155, R156: EncryptBlock is the 32-round recurrence on the words of the block, and its output is the last four
words in reverse order. -/
def Obligations.EncryptBlockFollowsTheRounds : Prop :=
  ∀ (keys : RoundKeys) (src : Block), ∃ x : Nat → Word,
    (∀ j < 4, x j = (wordsOf src).get j) ∧
    (∀ (i : Nat) (h : i < 32), x (i + 4) = x i ^^^ roundT (x (i + 1) ^^^ x (i + 2) ^^^ x (i + 3) ^^^ keys[i])) ∧
    encryptBlock keys src = blockOf (x 35) (x 34) (x 33) (x 32)

/-- R12, R72: reading a block as four words and writing the words back are inverse, in both orders, and byte 0 of a block
is the most significant byte of W0. -/
def Obligations.WordsAndBlocksAreInverse : Prop :=
  (∀ b : Block, blockOf (wordsOf b).x0 (wordsOf b).x1 (wordsOf b).x2 (wordsOf b).x3 = b) ∧
  (∀ w : Words4, wordsOf (blockOf w.x0 w.x1 w.x2 w.x3) = w) ∧
  (∀ b : Block, (wordsOf b).x0.extractLsb' 24 8 = b[0])

/-- R158: decrypting with the decryption keys of a key what its encryption keys encrypted gives the block back. -/
def Obligations.DecryptInvertsEncrypt : Prop :=
  ∀ (key : List Byte) (enc dec : RoundKeys) (p : Block), expand key = some (enc, dec) →
    decryptBlock dec (encryptBlock enc p) = p

/-- R133, R152: both diffusion transforms are linear over GF(2). -/
def Obligations.DiffusionIsLinear : Prop :=
  ∀ a b : Word, diffuse (a ^^^ b) = diffuse a ^^^ diffuse b ∧ keyDiffuse (a ^^^ b) = keyDiffuse a ^^^ keyDiffuse b ∧
    diffuse 0 = 0 ∧ keyDiffuse 0 = 0

/-- R160: the table-driven form of T gives the value of R153 for every word. -/
def Obligations.TableDrivenRoundAgrees : Prop :=
  ∀ a : Word, roundTByTables a = roundT a

/-- R180, R185, R189: the accelerated substitution is the SM4 S-box on every byte: as the isomorphism through AES_S with
the maps of R182 and R183, as the byte form SBOX_A, and as the vector form SBOX16, whatever the layout. -/
def Obligations.VectorSubstitutionIsTheSBox : Prop :=
  (∀ x : Byte, mapOut (aesSbox (mapIn x ^^^ offsetIn)) ^^^ offsetOut = sbox x) ∧
  (∀ x : Byte, sboxA x = sbox x) ∧
  (∀ (x : V128) (i : Fin 16), (sbox16 x)[i] = sboxA x[i] ∧ (sbox16 x)[i] = sbox x[i])

/-- R191, R192: in every lane the vector diffusion is L, and the four-lane round is the generic round F. -/
def Obligations.FourLaneRoundIsTheGenericRound : Prop :=
  (∀ (v : V128) (b : Fin 4), lane (lvec v) b = diffuse (lane v b)) ∧
  (∀ (v : Vectors4) (rk : Word) (b : Fin 4),
    (⟨lane (round4 v rk).v0 b, lane (round4 v rk).v1 b, lane (round4 v rk).v2 b, lane (round4 v rk).v3 b⟩ : Words4) =
      roundF ⟨lane v.v0 b, lane v.v1 b, lane v.v2 b, lane v.v3 b⟩ rk)

/-- R197: every lane of the four-block transform is the generic transform of that lane, in both directions. -/
def Obligations.BackendsAgreeOnEveryLane : Prop :=
  ∀ (keys : RoundKeys) (src : Buffer), ∃ enc dec,
    encryptFourBlocks true keys src = some enc ∧ decryptFourBlocks true keys src = some dec ∧
    ∀ b : Fin 4, laneBlock enc b = encryptBlock keys (laneBlock src b) ∧
      laneBlock dec b = decryptBlock keys (laneBlock src b)

/-- R195: a lane of the four-block transform depends only on the keys and on the same lane of its input. -/
def Obligations.LanesAreIndependent : Prop :=
  ∀ (keys : RoundKeys) (src src' out out' : Buffer) (b : Fin 4), laneBlock src b = laneBlock src' b →
    (encryptFourBlocks true keys src = some out → encryptFourBlocks true keys src' = some out' →
      laneBlock out b = laneBlock out' b) ∧
    (decryptFourBlocks true keys src = some out → decryptFourBlocks true keys src' = some out' →
      laneBlock out b = laneBlock out' b)

/-- R213: whatever lanes 1 to 3 hold, lane 0 of the output is that of the zero-padded block. -/
def Obligations.PaddingDoesNotLeak : Prop :=
  ∀ (keys : RoundKeys) (p g1 g2 g3 : Block),
    (encryptFourBlocks true keys (bufferOf p g1 g2 g3)).map unpack1 =
      (encryptFourBlocks true keys (pack1 p)).map unpack1

/-- R212, R214: the accelerated single-block path gives EncryptBlock's value, whatever WR held, and leaves everything but
WR as it was. -/
def Obligations.SingleBlockPathsAgree : Prop :=
  ∀ (d : Direction) (keys : RoundKeys) (p : Block) (s : State), s.platform.capAes = true →
    ∃ t, accelSingle d keys p s = some (encryptBlock keys p, t) ∧ t = { s with wr := t.wr, draws := t.draws }

/-- R139, R161, R199, R215: a port holds byte 0 of a byte string in its most significant bits and carries every byte
string, and each sub-block computes its own operation on its ports: Expand, EncryptBlock, EncryptFourBlocks (with R196 when
cap_aes is 0), Pack1 and Unpack1. -/
def Obligations.PortsCarryTheByteStrings : Prop :=
  (∀ (n : Nat) (b : Vector Byte n), ofPort (portOf b) = b) ∧
  (∀ (n : Nat) (b : Vector Byte n) (h : 0 < n), (portOf b).extractLsb' (8 * (n - 1)) 8 = b[0]) ∧
  (∀ key : Block, keySchedulePort (portOf key) = expandBlock key) ∧
  (∀ (keys : RoundKeys) (b : Block), genericPort keys (portOf b) = portOf (encryptBlock keys b)) ∧
  (∀ (keys : RoundKeys) (w : Buffer) (cap : Bool),
    accelPort keys (portOf w) cap = (encryptFourBlocks cap keys w).map portOf) ∧
  (∀ b : Block, packPort (portOf b) = portOf (pack1 b)) ∧
  (∀ w : Buffer, unpackPort (portOf w) = portOf (unpack1 w))

/-! ### Whole-machine rules -/

/-- R230: on a slot whose keys are mirrored (R41), an ENCRYPT followed, after any host writes that keep memory, slots and
platform, by a DECRYPT of what it wrote, writes the original block. -/
def Obligations.RoundTripThroughTheMachine : Prop :=
  ∀ (s w : State) (n : Nat), ReadyBlockCommand n s → (s.slot n).mirrored = true → s.mem.wf = true →
    ∃ t, exec (.encrypt n) s = .next t ∧
      (w.mem = t.mem → w.slots = t.slots → w.platform = t.platform → ReadyBlockCommand n w →
        w.operandNat .srcAddr = s.operandNat .dstAddr →
        ∃ x, exec (.decrypt n) w = .next x ∧
          x.mem.readBlock (w.operandNat .dstAddr) = s.mem.readBlock (s.operandNat .srcAddr))

/-- R81: a transform in place writes the 16 bytes that the transform into a disjoint buffer writes. -/
def Obligations.InPlaceIsExact : Prop :=
  ∀ (s : State) (n : Nat) (tmp : U64) (i : Instr), i = .encrypt n ∨ i = .decrypt n → ReadyBlockCommand n s →
    s.operandNat .srcAddr = s.operandNat .dstAddr → ReadyBlockCommand n (s.writeOperand .dstAddr tmp) →
    (tmp.toNat + 16 ≤ s.operandNat .srcAddr ∨ s.operandNat .srcAddr + 16 ≤ tmp.toNat) → s.mem.wf = true →
    ∃ t u, exec i s = .next t ∧ exec i (s.writeOperand .dstAddr tmp) = .next u ∧
      t.mem.readBlock (s.operandNat .srcAddr) = u.mem.readBlock tmp.toNat

/-- R41: the round-key mirror invariant is kept by every step. -/
def Obligations.RoundKeyMirrorIsKept : Prop :=
  ∀ s t : State, s.mirrorInv = true → step s = .next t → t.mirrorInv = true

/-- R222, R285: every step keeps the dispatch invariant: ENGINE_SEL, once set, is the decision for CAP_AES, and every
instance is bound to it. -/
def Obligations.DispatchDecisionIsKept : Prop :=
  ∀ s t : State, s.dispatchInv = true → step s = .next t → t.dispatchInv = true

/-- R34, R251: every step keeps STATUS legal: FAULT and ERR are never both 1, and CODE is an assigned code that matches. -/
def Obligations.StatusStaysLegal : Prop :=
  ∀ s t : State, s.status.ok = true → step s = .next t → t.status.ok = true

/-- R70: every step keeps host memory in its canonical form, inside the address space. -/
def Obligations.MemoryStaysCanonical : Prop :=
  ∀ s t : State, s.mem.wf = true → step s = .next t → t.mem.wf = true

/-- The invariant of the machine holds after reset on every platform a hardware can have, `State.reset` among them. -/
def Obligations.ResetMeetsTheInvariant : Prop :=
  (∀ (p : Platform) (n : Nat), 1 ≤ n → n ≤ 256 → p.mmioBase.toNat + 256 ≤ 2 ^ 64 → (State.resetOn p n).inv = true) ∧
  State.reset.inv = true

/-- R259: from a state that meets the dispatch invariant no step records ACCEL_UNSUPPORTED or INTERNAL. -/
def Obligations.UnreachableCausesStayUnreached : Prop :=
  ∀ s t : State, s.dispatchInv = true → s.status.code ≠ 0x0A#8 → s.status.code ≠ 0x0B#8 → step s = .next t →
    t.status.code ≠ 0x0A#8 ∧ t.status.code ≠ 0x0B#8

/-- R44: ENGINE_SEL is written once, by SelectEngine, and no event changes it afterwards until reset, which sets it to
UNSET. -/
def Obligations.EngineSelIsWriteOnce : Prop :=
  ∀ s t : State, step s = .next t →
    ((∀ rest, s.inbox ≠ .rst :: rest) → s.engineSel ≠ .unset → t.engineSel = s.engineSel) ∧
    (s.engineSel = .unset → t.engineSel = .unset ∨ t.engineSel = EngineSel.ofTag (selectEngine s.platform.capAes)) ∧
    (∀ rest, s.inbox = .rst :: rest → t.engineSel = .unset)

/-- R9, R45: no step changes a parameter of the run: CAP_AES, MMIO_BASE, MemAdmit, NSLOTS. -/
def Obligations.ParametersNeverChange : Prop :=
  ∀ s t : State, step s = .next t → t.platform = s.platform ∧ t.nslots = s.nslots

/-- R42: only a NEWCIPHER command on a slot, or reset, changes any field of that slot. -/
def Obligations.InstancesAreImmutable : Prop :=
  ∀ (s t : State) (k : Nat), step s = .next t → t.slot k ≠ s.slot k →
    (∃ rest, s.inbox = .rst :: rest) ∨
    (∃ v rest, s.inbox = .writeReg s.platform.mmioBase 8 v :: rest ∧ decode v = .ok (.newcipher k))

/-- R30: a command never writes an operand register; only a host write to it, or reset, changes one. -/
def Obligations.OnlyTheHostWritesOperands : Prop :=
  ∀ (s t : State) (r : OpReg), step s = .next t →
    (t.operand r ≠ s.operand r ∨ t.written r ≠ s.written r) →
    (∃ rest, s.inbox = .rst :: rest) ∨
    (∃ addr v rest, s.inbox = .writeReg addr 8 v :: rest ∧ addr.toNat = s.platform.mmioBase.toNat + r.offset)

/-- R280, R282, R49: the reset event clears STATUS, RESULT, FAULT_CMD, every WRITTEN flag, every VALID and ENGINE_SEL, in
every state, and leaves host memory and the parameters alone. -/
def Obligations.ResetEventClearsTheEngine : Prop :=
  ∀ (s : State) (rest : List HostAccess), s.inbox = .rst :: rest →
    ∃ t, step s = .next t ∧ t.status = ⟨false, false, 0⟩ ∧ t.result = 0 ∧ t.faultCmd = 0 ∧
      (∀ r, t.written r = false) ∧ (∀ k, (t.slot k).valid = false) ∧ t.engineSel = .unset ∧
      t.mem = s.mem ∧ t.platform = s.platform ∧ t.nslots = s.nslots ∧ t.inbox = rest

/-- R49: the values the spec gives the engine's state after reset, on every platform. -/
def Obligations.ResetValues : Prop :=
  (∀ (p : Platform) (n : Nat),
    (State.resetOn p n).status.word = 0 ∧ (State.resetOn p n).result = 0 ∧ (State.resetOn p n).faultCmd = 0 ∧
    (∀ r, (State.resetOn p n).written r = false) ∧ (State.resetOn p n).nslots = n ∧
    (∀ k, ((State.resetOn p n).slot k).valid = false) ∧ (State.resetOn p n).engineSel = .unset) ∧
  State.reset = State.resetOn Platform.initial Platform.initialSlots

/-- R284: writing KEY_ADDR, KEY_LEN = 16 and a NEWCIPHER word for a slot that exists creates the instance in three steps,
from every state that is not in the fault state and for every key buffer in range that the platform admits. -/
def Obligations.BootOrderCreatesTheInstance : Prop :=
  ∀ (s : State) (n : Nat) (ka a1 a2 : U64) (rest : List HostAccess), s.status.fault = false → n < s.nslots → n < 256 →
    a1.toNat = s.platform.mmioBase.toNat + 0x20 → a2.toNat = s.platform.mmioBase.toNat + 0x28 →
    ka.toNat + 16 ≤ 2 ^ 64 → memAdmit s.platform ka.toNat 16 .read = true →
    s.inbox = .writeReg a1 8 ka :: .writeReg a2 8 16 :: .writeReg s.platform.mmioBase 8 (encode (.newcipher n)) :: rest →
    ∃ t, Sys2Proof.core.run 3 s = .next t ∧ t.inbox = rest ∧ t.status = ⟨false, false, 0⟩ ∧ t.result = 0 ∧
      (t.slot n).valid = true ∧ (t.slot n).encRk = (expandBlock (s.mem.readBlock ka.toNat)).1 ∧
      (t.slot n).decRk = (expandBlock (s.mem.readBlock ka.toNat)).2 ∧ t.mem = s.mem

/-- R70, R82, R291: a host store of bytes to plain memory is read back, byte for byte, and changes no other byte and no
register of the engine. A host load gives the bytes of memory, adds them to the values the host has read, and changes nothing
else. That several bytes go in one step, that the values read are kept in `reads`, and that the host's own accesses succeed
whatever MemAdmit says, are the model's choices (log entries 3, 7 and 11). -/
def Obligations.HostStoresReachMemory : Prop :=
  (∀ (s : State) (addr : U64) (data : List Byte) (rest : List HostAccess),
    s.inbox = .storeBytes addr data :: rest → addr.toNat + data.length ≤ 2 ^ 64 →
    meetsRegisterBlock s.platform addr.toNat data.length = false → s.mem.wf = true →
    ∃ t, step s = .next t ∧ t.mem.readBytes addr.toNat data.length = data ∧
      (∀ a, a < addr.toNat ∨ addr.toNat + data.length ≤ a → t.mem.read a = s.mem.read a) ∧
      t = { s with inbox := rest, mem := t.mem }) ∧
  (∀ (s : State) (addr : U64) (n : Nat) (rest : List HostAccess),
    s.inbox = .loadBytes addr n :: rest → addr.toNat + n ≤ 2 ^ 64 →
    meetsRegisterBlock s.platform addr.toNat n = false →
    ∃ data : List Byte, step s = .next { s with inbox := rest, reads := s.reads ++ [.bytes data] } ∧
      data = s.mem.readBytes addr.toNat n ∧ data.length = n ∧
      ∀ (i : Nat) (h : i < data.length), data[i] = s.mem.read (addr.toNat + i))

/-- R9, R70: the plain-data form of MemAdmit leaves no predicate out (log entry 2, DEDUCED): for every predicate there are
windows that give it on every access of the address space outside the register block. -/
def Obligations.EveryAdmissionIsExpressible : Prop :=
  ∀ (p : Platform) (f : Nat → Nat → AccessKind → Bool), ∃ ws : List AdmitWindow,
    ∀ (a n : Nat) (k : AccessKind), a < 2 ^ 64 → n ≤ 2 ^ 64 →
      memAdmit { p with windows := ws } a n k = (!meetsRegisterBlock p a n && f a n k)

/-- R230, R231, R291: a host cannot tell the backends apart. Two states that meet the dispatch invariant and differ only in
CAP_AES, the engine tags, which engine ENGINE_SEL names, WR and what an empty slot holds observe the same and take the same
step. -/
def Obligations.BackendIsUnobservable : Prop :=
  ∀ s t : State, s.dispatchInv = true → t.dispatchInv = true → s.eraseBackend = t.eraseBackend →
    s.observe = t.observe ∧ eraseOutcome (step s) = eraseOutcome (step t)
end

