-- ==== Sys2Proof/Laws/Cipher.lean ====
section
/-! SUPPORT. The laws of words, bytes, nibbles and lanes. The check of the transcribed tables that
spec/42_accelerated_round.md R185 asks for stands beside the tables, in Sys2Proof/Machine/AccelRound.lean. -/

namespace Sys2Proof.Machine

/-! ### Bytes of a word -/

theorem getLsbD_wordOf (b0 b1 b2 b3 : Byte) (j : Nat) :
    (wordOf b0 b1 b2 b3).getLsbD j =
      if j < 8 then b3.getLsbD j else if j < 16 then b2.getLsbD (j - 8)
      else if j < 24 then b1.getLsbD (j - 16) else b0.getLsbD (j - 24) := by
  have h : (wordOf b0 b1 b2 b3).getLsbD j = (b0 ++ b1 ++ b2 ++ b3 : BitVec (8 + 8 + 8 + 8)).getLsbD j := rfl
  rw [h]
  simp only [BitVec.getLsbD_append]
  repeat' split
  all_goals first | omega | rfl

@[simp] theorem byteOf_wordOf_0 (b0 b1 b2 b3 : Byte) : byteOf (wordOf b0 b1 b2 b3) 0 = b0 := by
  apply BitVec.eq_of_getLsbD_eq
  intro j hj
  simp only [byteOf, BitVec.getLsbD_extractLsb', getLsbD_wordOf, hj, decide_true, Bool.true_and]
  repeat' split
  all_goals first | omega | (congr 1; omega)

@[simp] theorem byteOf_wordOf_1 (b0 b1 b2 b3 : Byte) : byteOf (wordOf b0 b1 b2 b3) 1 = b1 := by
  apply BitVec.eq_of_getLsbD_eq
  intro j hj
  simp only [byteOf, BitVec.getLsbD_extractLsb', getLsbD_wordOf, hj, decide_true, Bool.true_and]
  repeat' split
  all_goals first | omega | (congr 1; omega)

@[simp] theorem byteOf_wordOf_2 (b0 b1 b2 b3 : Byte) : byteOf (wordOf b0 b1 b2 b3) 2 = b2 := by
  apply BitVec.eq_of_getLsbD_eq
  intro j hj
  simp only [byteOf, BitVec.getLsbD_extractLsb', getLsbD_wordOf, hj, decide_true, Bool.true_and]
  repeat' split
  all_goals first | omega | (congr 1; omega)

@[simp] theorem byteOf_wordOf_3 (b0 b1 b2 b3 : Byte) : byteOf (wordOf b0 b1 b2 b3) 3 = b3 := by
  apply BitVec.eq_of_getLsbD_eq
  intro j hj
  simp only [byteOf, BitVec.getLsbD_extractLsb', getLsbD_wordOf, hj, decide_true, Bool.true_and]
  repeat' split
  all_goals first | omega | (congr 1; omega)

/-- A word is its four bytes. -/
theorem wordOf_byteOf (w : Word) : wordOf (byteOf w 0) (byteOf w 1) (byteOf w 2) (byteOf w 3) = w := by
  apply BitVec.eq_of_getLsbD_eq
  intro j hj
  rw [getLsbD_wordOf]
  simp only [byteOf, BitVec.getLsbD_extractLsb']
  repeat' split
  all_goals
    rw [decide_eq_true (by omega : _ < 8), Bool.true_and]
    congr 1
    omega

/-- The low and the high byte numbering of a word agree (R12, R190). -/
theorem laneByte_eq_byteOf (w : Word) {k : Nat} (h : k < 4) : laneByte w k = byteOf w (3 - k) := by
  simp only [laneByte, byteOf]
  congr 1
  omega

/-! ### Vectors -/

@[simp] theorem getElem_vxor (a b : V128) (i : Nat) (h : i < 16) : (vxor a b)[i] = a[i] ^^^ b[i] := by
  simp [vxor]

@[simp] theorem getElem_vand (a b : V128) (i : Nat) (h : i < 16) : (vand a b)[i] = a[i] &&& b[i] := by
  simp [vand]

@[simp] theorem getElem_vandn (a b : V128) (i : Nat) (h : i < 16) : (vandn a b)[i] = ~~~a[i] &&& b[i] := by
  simp [vandn]

@[simp] theorem getElem_maskNM (i : Nat) (h : i < 16) : maskNM[i] = 0x0F#8 := by
  simp [maskNM]

theorem getElem_pshufb (t m : V128) (i : Nat) (h : i < 16) :
    (pshufb t m)[i] = if m[i].msb then 0 else t[lowNibble m[i]]'(lowNibble_lt m[i]) := by
  simp [pshufb]

@[simp] theorem getElem_subBytes (v : V128) (i : Nat) (h : i < 16) : (subBytes v)[i] = aesSbox v[i] := by
  simp [subBytes]

@[simp] theorem getElem_ofLanes (w : Words4) (i : Nat) (h : i < 16) :
    (ofLanes w)[i] = laneByte (w.get (i / 4)) (i % 4) := by
  simp [ofLanes]

@[simp] theorem getElem_laneBlock (buf : Buffer) (b : Fin 4) (i : Nat) (h : i < 16) :
    (laneBlock buf b)[i] = buf[16 * b.val + i] := by
  simp [laneBlock]

@[simp] theorem getElem_pack1 (p : Block) (i : Nat) (h : i < 64) : (pack1 p)[i] = if h : i < 16 then p[i] else 0 := by
  simp [pack1]

@[simp] theorem getElem_unpack1 (buf : Buffer) (i : Nat) (h : i < 16) : (unpack1 buf)[i] = buf[i] := by
  simp [unpack1]

@[simp] theorem getElem_mirrorKeys (enc : RoundKeys) (i : Nat) (h : i < 32) : (mirrorKeys enc)[i] = enc[31 - i] := by
  simp [mirrorKeys]

/-! ### The tables -/

/-- R150: SBOX is a permutation of the byte values. -/
theorem sbox_injective : ((List.range 256).map fun n => (sbox (BitVec.ofNat 8 n)).toNat).Nodup := by decide +kernel

end Sys2Proof.Machine
end

