-- ==== Sys2Proof/Laws/Memory.lean ====
section
/-! SUPPORT. The laws of host memory: a read after a write gives what was written, a write leaves every other byte alone,
and every operation keeps the canonical form. -/

namespace Sys2Proof.Machine

/-! ### One byte -/

theorem Memory.read_consCell_ne {a b : Nat} (v : Byte) (m : Memory) (h : b ≠ a) :
    Memory.read (Memory.consCell a v m) b = Memory.read m b := by
  unfold Memory.consCell
  split
  · rfl
  · simp [Memory.read, Ne.symm h]

/-- A write leaves every other byte alone, in every memory. -/
theorem Memory.read_write_ne {a b : Nat} (m : Memory) (v : Byte) (h : b ≠ a) :
    Memory.read (Memory.write m a v) b = Memory.read m b := by
  induction m with
  | nil => exact Memory.read_consCell_ne v [] h
  | cons c m ih =>
    obtain ⟨k, w⟩ := c
    simp only [Memory.write]
    split
    · exact Memory.read_consCell_ne v _ h
    · split
      · next _ hk => rw [Memory.read_consCell_ne v m h]; simp [Memory.read, ← hk, Ne.symm h]
      · simp only [Memory.read, ih]

/-- Below the first address of a rising memory every byte reads as unlisted. -/
theorem Memory.read_of_lt {a lo : Nat} {m : Memory} (hm : Memory.risesFrom lo m = true) (h : a < lo) :
    Memory.read m a = unlistedByte := by
  induction m generalizing lo with
  | nil => rfl
  | cons c m ih =>
    obtain ⟨k, w⟩ := c
    simp only [Memory.risesFrom, Bool.and_eq_true, decide_eq_true_eq] at hm
    have hk : k ≠ a := by omega
    simpa [Memory.read, hk] using ih hm.2 (by omega)

theorem Memory.read_consCell_same {a lo : Nat} (v : Byte) {m : Memory} (hm : Memory.risesFrom lo m = true) (h : a < lo) :
    Memory.read (Memory.consCell a v m) a = v := by
  unfold Memory.consCell
  split
  · next hv => rw [Memory.read_of_lt hm h, hv]
  · simp [Memory.read]

theorem Memory.read_write_same_of_rises {a lo : Nat} {m : Memory} (v : Byte) (hm : Memory.risesFrom lo m = true) :
    Memory.read (Memory.write m a v) a = v := by
  induction m generalizing lo with
  | nil => exact Memory.read_consCell_same (lo := a + 1) v (m := []) rfl (by omega)
  | cons c m ih =>
    obtain ⟨k, w⟩ := c
    simp only [Memory.risesFrom, Bool.and_eq_true, decide_eq_true_eq] at hm
    simp only [Memory.write]
    split
    · next h => exact Memory.read_consCell_same (lo := k) v (by simp [Memory.risesFrom, hm.2]) h
    · split
      · next _ h => exact Memory.read_consCell_same v hm.2 (by omega)
      · next h h' =>
        have hk : k ≠ a := fun e => h' e.symm
        simpa [Memory.read, hk] using ih hm.2

theorem Memory.wf_iff {m : Memory} : Memory.wf m = true ↔
    Memory.risesFrom 0 m = true ∧ ∀ c ∈ m, c.1 < addressSpace ∧ c.2 ≠ unlistedByte := by
  simp [Memory.wf]

/-- In a canonical memory a byte just written reads as written. -/
theorem Memory.read_write_same {m : Memory} (a : Nat) (v : Byte) (hm : m.wf = true) :
    Memory.read (Memory.write m a v) a = v :=
  Memory.read_write_same_of_rises v (Memory.wf_iff.mp hm).1

/-! ### The canonical form -/

theorem Memory.risesFrom_mono {lo lo' : Nat} {m : Memory} (h : Memory.risesFrom lo m = true) (hl : lo' ≤ lo) :
    Memory.risesFrom lo' m = true := by
  cases m with
  | nil => rfl
  | cons c m =>
    obtain ⟨k, w⟩ := c
    simp only [Memory.risesFrom, Bool.and_eq_true, decide_eq_true_eq] at h ⊢
    exact ⟨by omega, h.2⟩

theorem Memory.risesFrom_consCell {a lo : Nat} (v : Byte) {m : Memory} (hm : Memory.risesFrom (a + 1) m = true)
    (h : lo ≤ a) : Memory.risesFrom lo (Memory.consCell a v m) = true := by
  unfold Memory.consCell
  split
  · exact Memory.risesFrom_mono hm (by omega)
  · simp [Memory.risesFrom, hm, h]

theorem Memory.risesFrom_write {a lo : Nat} {m : Memory} (v : Byte) (hm : Memory.risesFrom lo m = true) (h : lo ≤ a) :
    Memory.risesFrom lo (Memory.write m a v) = true := by
  induction m generalizing lo with
  | nil => exact Memory.risesFrom_consCell v rfl h
  | cons c m ih =>
    obtain ⟨k, w⟩ := c
    have hm' := hm
    simp only [Memory.risesFrom, Bool.and_eq_true, decide_eq_true_eq] at hm'
    simp only [Memory.write]
    split
    · next hk => exact Memory.risesFrom_consCell v (by simp [Memory.risesFrom, hm'.2]; omega) h
    · split
      · next _ hk => exact Memory.risesFrom_consCell v (hk ▸ hm'.2) h
      · simp only [Memory.risesFrom, Bool.and_eq_true, decide_eq_true_eq]
        exact ⟨hm'.1, ih hm'.2 (by omega)⟩

theorem Memory.mem_consCell {a : Nat} {v : Byte} {m : Memory} {c : Host.Cell} (h : c ∈ Memory.consCell a v m) :
    c = (a, v) ∧ v ≠ unlistedByte ∨ c ∈ m := by
  unfold Memory.consCell at h
  split at h
  · exact .inr h
  · next hv =>
    rcases List.mem_cons.mp h with h | h
    · exact .inl ⟨h, hv⟩
    · exact .inr h

theorem Memory.mem_write {a : Nat} {v : Byte} {m : Memory} {c : Host.Cell} (h : c ∈ Memory.write m a v) :
    c = (a, v) ∧ v ≠ unlistedByte ∨ c ∈ m := by
  induction m with
  | nil => exact Memory.mem_consCell h
  | cons d m ih =>
    obtain ⟨k, w⟩ := d
    simp only [Memory.write] at h
    split at h
    · exact Memory.mem_consCell h
    · split at h
      · exact (Memory.mem_consCell h).imp_right (List.mem_cons_of_mem _)
      · rcases List.mem_cons.mp h with h | h
        · exact .inr (h ▸ List.mem_cons_self)
        · exact (ih h).imp_right (List.mem_cons_of_mem _)

/-- A write inside the address space keeps the canonical form. -/
theorem Memory.wf_write {m : Memory} {a : Nat} (v : Byte) (hm : m.wf = true) (ha : a < addressSpace) :
    (Memory.write m a v).wf = true := by
  rw [Memory.wf_iff] at hm ⊢
  refine ⟨Memory.risesFrom_write v hm.1 (Nat.zero_le a), fun c hc => ?_⟩
  rcases Memory.mem_write hc with ⟨rfl, hv⟩ | hc
  · exact ⟨ha, hv⟩
  · exact hm.2 c hc

/-! ### Byte strings -/

@[simp] theorem Memory.length_readBytes (m : Memory) (a n : Nat) : (m.readBytes a n).length = n := by
  induction n generalizing a with
  | zero => rfl
  | succ n ih => simp [Memory.readBytes, ih]

/-- Byte `i` of a byte string read from memory. -/
theorem Memory.getElem_readBytes (m : Memory) (a n i : Nat) (h : i < (m.readBytes a n).length) :
    (m.readBytes a n)[i] = m.read (a + i) := by
  induction n generalizing a i with
  | zero => simp at h
  | succ n ih =>
    cases i with
    | zero => rfl
    | succ i =>
      simp only [Memory.readBytes, List.getElem_cons_succ]
      rw [ih, Nat.add_assoc, Nat.add_comm 1 i]

@[simp] theorem Memory.getElem_readBlock (m : Memory) (a i : Nat) (h : i < 16) :
    (m.readBlock a)[i] = m.read (a + i) := by
  simp [Memory.readBlock]

/-- A block read from memory, as the byte string of its sixteen bytes. -/
theorem Memory.readBytes_eq_readBlock (m : Memory) (a : Nat) : m.readBytes a 16 = (m.readBlock a).toList := by
  apply List.ext_getElem
  · simp
  · intro i h h'
    rw [Memory.getElem_readBytes, Vector.getElem_toList, Memory.getElem_readBlock]

/-- A write of a byte string leaves every byte outside it alone. -/
theorem Memory.read_writeBytes_outside (m : Memory) {a b : Nat} (bs : List Byte) (h : b < a ∨ a + bs.length ≤ b) :
    (m.writeBytes a bs).read b = m.read b := by
  induction bs generalizing m a with
  | nil => rfl
  | cons v bs ih =>
    simp only [List.length_cons] at h
    rw [Memory.writeBytes, ih _ (by omega), Memory.read_write_ne m v (by omega)]

/-- A write of a byte string inside the address space keeps the canonical form. -/
theorem Memory.wf_writeBytes {m : Memory} {a : Nat} (bs : List Byte) (hm : m.wf = true)
    (ha : a + bs.length ≤ addressSpace) : (m.writeBytes a bs).wf = true := by
  induction bs generalizing m a with
  | nil => exact hm
  | cons v bs ih =>
    simp only [List.length_cons] at ha
    exact ih (Memory.wf_write v hm (by omega)) (by omega)

/-- Inside the address space, byte `i` of a byte string just written reads as written. -/
theorem Memory.read_writeBytes_inside {m : Memory} {a : Nat} (bs : List Byte) (hm : m.wf = true)
    (ha : a + bs.length ≤ addressSpace) (i : Nat) (hi : i < bs.length) : (m.writeBytes a bs).read (a + i) = bs[i] := by
  induction bs generalizing m a i with
  | nil => simp at hi
  | cons v bs ih =>
    simp only [List.length_cons] at ha hi
    have hw := Memory.wf_write v hm (show a < addressSpace by omega)
    cases i with
    | zero =>
      rw [Memory.writeBytes, Memory.read_writeBytes_outside _ bs (.inl (by omega))]
      exact Memory.read_write_same a v hm
    | succ i =>
      rw [Memory.writeBytes, show a + (i + 1) = a + 1 + i by omega, ih hw (by omega) i (by omega)]
      rfl

/-- A byte string just written inside the address space is read back. -/
theorem Memory.readBytes_writeBytes {m : Memory} {a : Nat} (bs : List Byte) (hm : m.wf = true)
    (ha : a + bs.length ≤ addressSpace) : (m.writeBytes a bs).readBytes a bs.length = bs := by
  apply List.ext_getElem
  · simp
  · intro i h h'
    rw [Memory.getElem_readBytes, Memory.read_writeBytes_inside bs hm ha i h']

/-! ### Blocks -/

/-- A block write leaves every byte outside its sixteen alone. -/
theorem Memory.read_writeBlock_outside (m : Memory) {a b : Nat} (v : Block) (h : b < a ∨ a + 16 ≤ b) :
    (m.writeBlock a v).read b = m.read b :=
  Memory.read_writeBytes_outside m v.toList (by simpa using h)

/-- A block write inside the address space keeps the canonical form. -/
theorem Memory.wf_writeBlock {m : Memory} {a : Nat} (v : Block) (hm : m.wf = true) (ha : a + 16 ≤ addressSpace) :
    (m.writeBlock a v).wf = true :=
  Memory.wf_writeBytes v.toList hm (by simpa using ha)

/-- A block just written inside the address space is read back. -/
theorem Memory.readBlock_writeBlock {m : Memory} {a : Nat} (v : Block) (hm : m.wf = true) (ha : a + 16 ≤ addressSpace) :
    (m.writeBlock a v).readBlock a = v := by
  apply Vector.ext
  intro i hi
  rw [Memory.getElem_readBlock, Memory.writeBlock,
    Memory.read_writeBytes_inside v.toList hm (by simpa using ha) i (by simpa using hi)]
  simp

end Sys2Proof.Machine
end

