-- ==== Sys2Proof/Laws/State.lean ====
section
/-! SUPPORT. What each named update of the state gives in each field, one lemma per field, so that no proof unfolds an
update. -/

namespace Sys2Proof.Machine

@[simp] theorem State.setResult_status (s : State) (v : U64) :
    (s.setResult v).status = s.status := rfl
@[simp] theorem State.setResult_result (s : State) (v : U64) :
    (s.setResult v).result = v := rfl
@[simp] theorem State.setResult_faultCmd (s : State) (v : U64) :
    (s.setResult v).faultCmd = s.faultCmd := rfl
@[simp] theorem State.setResult_operands (s : State) (v : U64) :
    (s.setResult v).operands = s.operands := rfl
@[simp] theorem State.setResult_slots (s : State) (v : U64) :
    (s.setResult v).slots = s.slots := rfl
@[simp] theorem State.setResult_engineSel (s : State) (v : U64) :
    (s.setResult v).engineSel = s.engineSel := rfl
@[simp] theorem State.setResult_wr (s : State) (v : U64) :
    (s.setResult v).wr = s.wr := rfl
@[simp] theorem State.setResult_mem (s : State) (v : U64) :
    (s.setResult v).mem = s.mem := rfl
@[simp] theorem State.setResult_platform (s : State) (v : U64) :
    (s.setResult v).platform = s.platform := rfl
@[simp] theorem State.setResult_inbox (s : State) (v : U64) :
    (s.setResult v).inbox = s.inbox := rfl
@[simp] theorem State.setResult_reads (s : State) (v : U64) :
    (s.setResult v).reads = s.reads := rfl
@[simp] theorem State.setResult_draws (s : State) (v : U64) :
    (s.setResult v).draws = s.draws := rfl

@[simp] theorem State.setWr_status (s : State) (b : Buffer) :
    (s.setWr b).status = s.status := rfl
@[simp] theorem State.setWr_result (s : State) (b : Buffer) :
    (s.setWr b).result = s.result := rfl
@[simp] theorem State.setWr_faultCmd (s : State) (b : Buffer) :
    (s.setWr b).faultCmd = s.faultCmd := rfl
@[simp] theorem State.setWr_operands (s : State) (b : Buffer) :
    (s.setWr b).operands = s.operands := rfl
@[simp] theorem State.setWr_slots (s : State) (b : Buffer) :
    (s.setWr b).slots = s.slots := rfl
@[simp] theorem State.setWr_engineSel (s : State) (b : Buffer) :
    (s.setWr b).engineSel = s.engineSel := rfl
@[simp] theorem State.setWr_wr (s : State) (b : Buffer) :
    (s.setWr b).wr = b := rfl
@[simp] theorem State.setWr_mem (s : State) (b : Buffer) :
    (s.setWr b).mem = s.mem := rfl
@[simp] theorem State.setWr_platform (s : State) (b : Buffer) :
    (s.setWr b).platform = s.platform := rfl
@[simp] theorem State.setWr_inbox (s : State) (b : Buffer) :
    (s.setWr b).inbox = s.inbox := rfl
@[simp] theorem State.setWr_reads (s : State) (b : Buffer) :
    (s.setWr b).reads = s.reads := rfl
@[simp] theorem State.setWr_draws (s : State) (b : Buffer) :
    (s.setWr b).draws = s.draws := rfl

@[simp] theorem State.releaseWr_status (s : State) :
    (s.releaseWr).status = s.status := rfl
@[simp] theorem State.releaseWr_result (s : State) :
    (s.releaseWr).result = s.result := rfl
@[simp] theorem State.releaseWr_faultCmd (s : State) :
    (s.releaseWr).faultCmd = s.faultCmd := rfl
@[simp] theorem State.releaseWr_operands (s : State) :
    (s.releaseWr).operands = s.operands := rfl
@[simp] theorem State.releaseWr_slots (s : State) :
    (s.releaseWr).slots = s.slots := rfl
@[simp] theorem State.releaseWr_engineSel (s : State) :
    (s.releaseWr).engineSel = s.engineSel := rfl
@[simp] theorem State.releaseWr_wr (s : State) :
    (s.releaseWr).wr = Config.deadWr s.draws := rfl
@[simp] theorem State.releaseWr_mem (s : State) :
    (s.releaseWr).mem = s.mem := rfl
@[simp] theorem State.releaseWr_platform (s : State) :
    (s.releaseWr).platform = s.platform := rfl
@[simp] theorem State.releaseWr_inbox (s : State) :
    (s.releaseWr).inbox = s.inbox := rfl
@[simp] theorem State.releaseWr_reads (s : State) :
    (s.releaseWr).reads = s.reads := rfl
@[simp] theorem State.releaseWr_draws (s : State) :
    (s.releaseWr).draws = s.draws + 1 := rfl

@[simp] theorem State.storeBlock_status (s : State) (a : Nat) (b : Block) :
    (s.storeBlock a b).status = s.status := rfl
@[simp] theorem State.storeBlock_result (s : State) (a : Nat) (b : Block) :
    (s.storeBlock a b).result = s.result := rfl
@[simp] theorem State.storeBlock_faultCmd (s : State) (a : Nat) (b : Block) :
    (s.storeBlock a b).faultCmd = s.faultCmd := rfl
@[simp] theorem State.storeBlock_operands (s : State) (a : Nat) (b : Block) :
    (s.storeBlock a b).operands = s.operands := rfl
@[simp] theorem State.storeBlock_slots (s : State) (a : Nat) (b : Block) :
    (s.storeBlock a b).slots = s.slots := rfl
@[simp] theorem State.storeBlock_engineSel (s : State) (a : Nat) (b : Block) :
    (s.storeBlock a b).engineSel = s.engineSel := rfl
@[simp] theorem State.storeBlock_wr (s : State) (a : Nat) (b : Block) :
    (s.storeBlock a b).wr = s.wr := rfl
@[simp] theorem State.storeBlock_mem (s : State) (a : Nat) (b : Block) :
    (s.storeBlock a b).mem = s.mem.writeBlock a b := rfl
@[simp] theorem State.storeBlock_platform (s : State) (a : Nat) (b : Block) :
    (s.storeBlock a b).platform = s.platform := rfl
@[simp] theorem State.storeBlock_inbox (s : State) (a : Nat) (b : Block) :
    (s.storeBlock a b).inbox = s.inbox := rfl
@[simp] theorem State.storeBlock_reads (s : State) (a : Nat) (b : Block) :
    (s.storeBlock a b).reads = s.reads := rfl
@[simp] theorem State.storeBlock_draws (s : State) (a : Nat) (b : Block) :
    (s.storeBlock a b).draws = s.draws := rfl

@[simp] theorem State.writeOperand_status (s : State) (r : OpReg) (v : U64) :
    (s.writeOperand r v).status = s.status := rfl
@[simp] theorem State.writeOperand_result (s : State) (r : OpReg) (v : U64) :
    (s.writeOperand r v).result = s.result := rfl
@[simp] theorem State.writeOperand_faultCmd (s : State) (r : OpReg) (v : U64) :
    (s.writeOperand r v).faultCmd = s.faultCmd := rfl
@[simp] theorem State.writeOperand_operands (s : State) (r : OpReg) (v : U64) :
    (s.writeOperand r v).operands = s.operands.set r ⟨v, true⟩ := rfl
@[simp] theorem State.writeOperand_slots (s : State) (r : OpReg) (v : U64) :
    (s.writeOperand r v).slots = s.slots := rfl
@[simp] theorem State.writeOperand_engineSel (s : State) (r : OpReg) (v : U64) :
    (s.writeOperand r v).engineSel = s.engineSel := rfl
@[simp] theorem State.writeOperand_wr (s : State) (r : OpReg) (v : U64) :
    (s.writeOperand r v).wr = s.wr := rfl
@[simp] theorem State.writeOperand_mem (s : State) (r : OpReg) (v : U64) :
    (s.writeOperand r v).mem = s.mem := rfl
@[simp] theorem State.writeOperand_platform (s : State) (r : OpReg) (v : U64) :
    (s.writeOperand r v).platform = s.platform := rfl
@[simp] theorem State.writeOperand_inbox (s : State) (r : OpReg) (v : U64) :
    (s.writeOperand r v).inbox = s.inbox := rfl
@[simp] theorem State.writeOperand_reads (s : State) (r : OpReg) (v : U64) :
    (s.writeOperand r v).reads = s.reads := rfl
@[simp] theorem State.writeOperand_draws (s : State) (r : OpReg) (v : U64) :
    (s.writeOperand r v).draws = s.draws := rfl

@[simp] theorem State.setSlot_status (s : State) (n : Nat) (v : Slot) :
    (s.setSlot n v).status = s.status := rfl
@[simp] theorem State.setSlot_result (s : State) (n : Nat) (v : Slot) :
    (s.setSlot n v).result = s.result := rfl
@[simp] theorem State.setSlot_faultCmd (s : State) (n : Nat) (v : Slot) :
    (s.setSlot n v).faultCmd = s.faultCmd := rfl
@[simp] theorem State.setSlot_operands (s : State) (n : Nat) (v : Slot) :
    (s.setSlot n v).operands = s.operands := rfl
@[simp] theorem State.setSlot_slots (s : State) (n : Nat) (v : Slot) :
    (s.setSlot n v).slots = s.slots.set n v := rfl
@[simp] theorem State.setSlot_engineSel (s : State) (n : Nat) (v : Slot) :
    (s.setSlot n v).engineSel = s.engineSel := rfl
@[simp] theorem State.setSlot_wr (s : State) (n : Nat) (v : Slot) :
    (s.setSlot n v).wr = s.wr := rfl
@[simp] theorem State.setSlot_mem (s : State) (n : Nat) (v : Slot) :
    (s.setSlot n v).mem = s.mem := rfl
@[simp] theorem State.setSlot_platform (s : State) (n : Nat) (v : Slot) :
    (s.setSlot n v).platform = s.platform := rfl
@[simp] theorem State.setSlot_inbox (s : State) (n : Nat) (v : Slot) :
    (s.setSlot n v).inbox = s.inbox := rfl
@[simp] theorem State.setSlot_reads (s : State) (n : Nat) (v : Slot) :
    (s.setSlot n v).reads = s.reads := rfl
@[simp] theorem State.setSlot_draws (s : State) (n : Nat) (v : Slot) :
    (s.setSlot n v).draws = s.draws := rfl

@[simp] theorem State.invalidate_status (s : State) (n : Nat) :
    (s.invalidate n).status = s.status := rfl
@[simp] theorem State.invalidate_result (s : State) (n : Nat) :
    (s.invalidate n).result = s.result := rfl
@[simp] theorem State.invalidate_faultCmd (s : State) (n : Nat) :
    (s.invalidate n).faultCmd = s.faultCmd := rfl
@[simp] theorem State.invalidate_operands (s : State) (n : Nat) :
    (s.invalidate n).operands = s.operands := rfl
@[simp] theorem State.invalidate_slots (s : State) (n : Nat) :
    (s.invalidate n).slots = s.slots.set n { s.slot n with valid := false } := rfl
@[simp] theorem State.invalidate_engineSel (s : State) (n : Nat) :
    (s.invalidate n).engineSel = s.engineSel := rfl
@[simp] theorem State.invalidate_wr (s : State) (n : Nat) :
    (s.invalidate n).wr = s.wr := rfl
@[simp] theorem State.invalidate_mem (s : State) (n : Nat) :
    (s.invalidate n).mem = s.mem := rfl
@[simp] theorem State.invalidate_platform (s : State) (n : Nat) :
    (s.invalidate n).platform = s.platform := rfl
@[simp] theorem State.invalidate_inbox (s : State) (n : Nat) :
    (s.invalidate n).inbox = s.inbox := rfl
@[simp] theorem State.invalidate_reads (s : State) (n : Nat) :
    (s.invalidate n).reads = s.reads := rfl
@[simp] theorem State.invalidate_draws (s : State) (n : Nat) :
    (s.invalidate n).draws = s.draws := rfl

@[simp] theorem State.accept_status (s : State) :
    (s.accept).status = ⟨s.status.fault, false, 0⟩ := rfl
@[simp] theorem State.accept_result (s : State) :
    (s.accept).result = s.result := rfl
@[simp] theorem State.accept_faultCmd (s : State) :
    (s.accept).faultCmd = s.faultCmd := rfl
@[simp] theorem State.accept_operands (s : State) :
    (s.accept).operands = s.operands := rfl
@[simp] theorem State.accept_slots (s : State) :
    (s.accept).slots = s.slots := rfl
@[simp] theorem State.accept_engineSel (s : State) :
    (s.accept).engineSel = s.engineSel := rfl
@[simp] theorem State.accept_wr (s : State) :
    (s.accept).wr = s.wr := rfl
@[simp] theorem State.accept_mem (s : State) :
    (s.accept).mem = s.mem := rfl
@[simp] theorem State.accept_platform (s : State) :
    (s.accept).platform = s.platform := rfl
@[simp] theorem State.accept_inbox (s : State) :
    (s.accept).inbox = s.inbox := rfl
@[simp] theorem State.accept_reads (s : State) :
    (s.accept).reads = s.reads := rfl
@[simp] theorem State.accept_draws (s : State) :
    (s.accept).draws = s.draws := rfl

@[simp] theorem State.raiseFault_status (s : State) (c : FaultCause) (v : U64) :
    (s.raiseFault c v).status = ⟨true, false, c.code⟩ := rfl
@[simp] theorem State.raiseFault_result (s : State) (c : FaultCause) (v : U64) :
    (s.raiseFault c v).result = s.result := rfl
@[simp] theorem State.raiseFault_faultCmd (s : State) (c : FaultCause) (v : U64) :
    (s.raiseFault c v).faultCmd = v := rfl
@[simp] theorem State.raiseFault_operands (s : State) (c : FaultCause) (v : U64) :
    (s.raiseFault c v).operands = s.operands := rfl
@[simp] theorem State.raiseFault_slots (s : State) (c : FaultCause) (v : U64) :
    (s.raiseFault c v).slots = s.slots := rfl
@[simp] theorem State.raiseFault_engineSel (s : State) (c : FaultCause) (v : U64) :
    (s.raiseFault c v).engineSel = s.engineSel := rfl
@[simp] theorem State.raiseFault_wr (s : State) (c : FaultCause) (v : U64) :
    (s.raiseFault c v).wr = s.wr := rfl
@[simp] theorem State.raiseFault_mem (s : State) (c : FaultCause) (v : U64) :
    (s.raiseFault c v).mem = s.mem := rfl
@[simp] theorem State.raiseFault_platform (s : State) (c : FaultCause) (v : U64) :
    (s.raiseFault c v).platform = s.platform := rfl
@[simp] theorem State.raiseFault_inbox (s : State) (c : FaultCause) (v : U64) :
    (s.raiseFault c v).inbox = s.inbox := rfl
@[simp] theorem State.raiseFault_reads (s : State) (c : FaultCause) (v : U64) :
    (s.raiseFault c v).reads = s.reads := rfl
@[simp] theorem State.raiseFault_draws (s : State) (c : FaultCause) (v : U64) :
    (s.raiseFault c v).draws = s.draws := rfl

@[simp] theorem State.completeError_status (s : State) (c : ErrorCause) (v : U64) :
    (s.completeError c v).status = ⟨s.status.fault, true, c.code⟩ := rfl
@[simp] theorem State.completeError_result (s : State) (c : ErrorCause) (v : U64) :
    (s.completeError c v).result = v := rfl
@[simp] theorem State.completeError_faultCmd (s : State) (c : ErrorCause) (v : U64) :
    (s.completeError c v).faultCmd = s.faultCmd := rfl
@[simp] theorem State.completeError_operands (s : State) (c : ErrorCause) (v : U64) :
    (s.completeError c v).operands = s.operands := rfl
@[simp] theorem State.completeError_slots (s : State) (c : ErrorCause) (v : U64) :
    (s.completeError c v).slots = s.slots := rfl
@[simp] theorem State.completeError_engineSel (s : State) (c : ErrorCause) (v : U64) :
    (s.completeError c v).engineSel = s.engineSel := rfl
@[simp] theorem State.completeError_wr (s : State) (c : ErrorCause) (v : U64) :
    (s.completeError c v).wr = s.wr := rfl
@[simp] theorem State.completeError_mem (s : State) (c : ErrorCause) (v : U64) :
    (s.completeError c v).mem = s.mem := rfl
@[simp] theorem State.completeError_platform (s : State) (c : ErrorCause) (v : U64) :
    (s.completeError c v).platform = s.platform := rfl
@[simp] theorem State.completeError_inbox (s : State) (c : ErrorCause) (v : U64) :
    (s.completeError c v).inbox = s.inbox := rfl
@[simp] theorem State.completeError_reads (s : State) (c : ErrorCause) (v : U64) :
    (s.completeError c v).reads = s.reads := rfl
@[simp] theorem State.completeError_draws (s : State) (c : ErrorCause) (v : U64) :
    (s.completeError c v).draws = s.draws := rfl

@[simp] theorem State.logRead_status (s : State) (x : HostRead) :
    (s.logRead x).status = s.status := rfl
@[simp] theorem State.logRead_result (s : State) (x : HostRead) :
    (s.logRead x).result = s.result := rfl
@[simp] theorem State.logRead_faultCmd (s : State) (x : HostRead) :
    (s.logRead x).faultCmd = s.faultCmd := rfl
@[simp] theorem State.logRead_operands (s : State) (x : HostRead) :
    (s.logRead x).operands = s.operands := rfl
@[simp] theorem State.logRead_slots (s : State) (x : HostRead) :
    (s.logRead x).slots = s.slots := rfl
@[simp] theorem State.logRead_engineSel (s : State) (x : HostRead) :
    (s.logRead x).engineSel = s.engineSel := rfl
@[simp] theorem State.logRead_wr (s : State) (x : HostRead) :
    (s.logRead x).wr = s.wr := rfl
@[simp] theorem State.logRead_mem (s : State) (x : HostRead) :
    (s.logRead x).mem = s.mem := rfl
@[simp] theorem State.logRead_platform (s : State) (x : HostRead) :
    (s.logRead x).platform = s.platform := rfl
@[simp] theorem State.logRead_inbox (s : State) (x : HostRead) :
    (s.logRead x).inbox = s.inbox := rfl
@[simp] theorem State.logRead_reads (s : State) (x : HostRead) :
    (s.logRead x).reads = s.reads ++ [x] := rfl
@[simp] theorem State.logRead_draws (s : State) (x : HostRead) :
    (s.logRead x).draws = s.draws := rfl

@[simp] theorem State.resetEvent_status (s : State) :
    (s.resetEvent).status = ⟨false, false, 0⟩ := rfl
@[simp] theorem State.resetEvent_result (s : State) :
    (s.resetEvent).result = 0 := rfl
@[simp] theorem State.resetEvent_faultCmd (s : State) :
    (s.resetEvent).faultCmd = 0 := rfl
@[simp] theorem State.resetEvent_operands (s : State) :
    (s.resetEvent).operands = Operands.reset := rfl
@[simp] theorem State.resetEvent_slots (s : State) :
    (s.resetEvent).slots = List.replicate s.nslots Slot.reset := rfl
@[simp] theorem State.resetEvent_engineSel (s : State) :
    (s.resetEvent).engineSel = .unset := rfl
@[simp] theorem State.resetEvent_wr (s : State) :
    (s.resetEvent).wr = Vector.replicate 64 0 := rfl
@[simp] theorem State.resetEvent_mem (s : State) :
    (s.resetEvent).mem = s.mem := rfl
@[simp] theorem State.resetEvent_platform (s : State) :
    (s.resetEvent).platform = s.platform := rfl
@[simp] theorem State.resetEvent_inbox (s : State) :
    (s.resetEvent).inbox = s.inbox := rfl
@[simp] theorem State.resetEvent_reads (s : State) :
    (s.resetEvent).reads = s.reads := rfl
@[simp] theorem State.resetEvent_draws (s : State) :
    (s.resetEvent).draws = s.draws := rfl

@[simp] theorem Operands.get_set_same (o : Operands) (r : OpReg) (v : OperandReg) : (o.set r v).get r = v := by
  cases r <;> rfl

theorem Operands.get_set_ne (o : Operands) {r q : OpReg} (v : OperandReg) (h : q ≠ r) :
    (o.set r v).get q = o.get q := by
  cases r <;> cases q <;> first | rfl | exact absurd rfl h

@[simp] theorem Operands.get_reset (r : OpReg) : Operands.reset.get r = OperandReg.reset := by
  cases r <;> rfl

/-- Slot `n` after it is written, if it exists. -/
theorem State.slot_setSlot_same (s : State) {n : Nat} (v : Slot) (h : n < s.nslots) : (s.setSlot n v).slot n = v := by
  simp only [State.nslots] at h
  simp [State.slot, h]

/-- Writing one slot leaves every other slot as it was. -/
theorem State.slot_setSlot_ne (s : State) {n k : Nat} (v : Slot) (h : k ≠ n) : (s.setSlot n v).slot k = s.slot k := by
  simp [State.slot, Ne.symm h]

/-- The number of slots never changes by a write. -/
@[simp] theorem State.nslots_setSlot (s : State) (n : Nat) (v : Slot) : (s.setSlot n v).nslots = s.nslots := by
  simp [State.nslots]

/-- A property of every slot after one slot is written holds if it held before and holds of the written value. -/
theorem slots_all_set {p : Slot → Bool} {l : List Slot} {n : Nat} {v : Slot} (hl : l.all p = true) (hv : p v = true) :
    (l.set n v).all p = true := by
  rw [List.all_eq_true] at hl ⊢
  intro x hx
  rcases List.mem_or_eq_of_mem_set hx with h | h
  · exact hl x h
  · exact h ▸ hv

/-- A slot of the state has every property that all slots and an empty slot have. -/
theorem State.slot_all {p : Slot → Bool} {s : State} (hl : s.slots.all p = true) (h0 : p Slot.reset = true) (n : Nat) :
    p (s.slot n) = true := by
  rw [List.all_eq_true] at hl
  simp only [State.slot, List.getD]
  cases h : s.slots[n]? with
  | none => simpa using h0
  | some v => simpa using hl v (List.mem_of_getElem? h)

end Sys2Proof.Machine
end

