-- ==== Sys2Proof/Laws/Ops.lean ====
section
/-! SUPPORT. One lemma per shared operation that says everything it can do: the checks, the dispatcher, the transform of a
block, the four meanings, and a step. -/

namespace Sys2Proof.Machine

/-! ### Checks -/

theorem inRange_iff {a n : Nat} : inRange a n = true ↔ a + n ≤ 2 ^ 64 := by
  simp [inRange, addressSpace]

/-- Two nonempty ranges meet when each starts below the end of the other. -/
theorem rangesMeet_iff {a n b k : Nat} : rangesMeet a n b k = true ↔ a < b + k ∧ b < a + n ∧ 0 < n ∧ 0 < k := by
  simp [rangesMeet, and_assoc]

/-- R83: when a range meets the register block. -/
theorem meetsRegisterBlock_iff {p : Platform} {a n : Nat} :
    meetsRegisterBlock p a n = true ↔ a < p.mmioBase.toNat + 256 ∧ p.mmioBase.toNat < a + n ∧ 0 < n := by
  simp [meetsRegisterBlock, rangesMeet_iff]

/-- R80: when two blocks overlap inexactly. -/
theorem inexactOverlap_iff {s d : Nat} : inexactOverlap s d = true ↔ s < d + 16 ∧ d < s + 16 ∧ s ≠ d := by
  simp [inexactOverlap, and_assoc]

theorem allWritten_keyOperands (s : State) :
    s.allWritten keyOperands = (s.written .keyAddr && s.written .keyLen) := by
  simp [State.allWritten, keyOperands]

theorem allWritten_blockOperands (s : State) :
    s.allWritten blockOperands =
      (s.written .srcAddr && s.written .srcLen && s.written .dstAddr && s.written .dstLen) := by
  simp [State.allWritten, blockOperands, Bool.and_assoc]

/-- A block command that passes its checks has its destination block inside the address space. -/
theorem dst_inRange_of_noFault {n : Nat} {s : State} (h : blockCommandFault n s = none) :
    s.operandNat .dstAddr + 16 ≤ addressSpace := by
  simp only [blockCommandFault] at h
  repeat' split at h
  all_goals try contradiction
  next hr _ _ => simp [inRange] at hr; omega

/-- A slot that passes the checks of a block command is not an ACCEL slot without the capability (R196). -/
theorem capAes_of_noFault {n : Nat} {s : State} (h : blockCommandFault n s = none) (ht : (s.slot n).tag = .accel) :
    s.platform.capAes = true := by
  simp only [blockCommandFault] at h
  repeat' split at h
  all_goals try contradiction
  next hc _ _ _ _ _ => simpa [ht] using hc

/-! ### The dispatcher and the transform -/

/-- The decision is the cached one, or SelectEngine's when none is cached. -/
theorem engineFor_tag (s : State) :
    EngineSel.ofTag (engineFor s).1 = (engineFor s).2.engineSel ∧
      (s.engineSel ≠ .unset → (engineFor s).2.engineSel = s.engineSel) ∧
      (s.engineSel = .unset → (engineFor s).1 = selectEngine s.platform.capAes) := by
  cases h : s.engineSel <;> simp [engineFor, h, EngineSel.ofTag]

/-- engineFor changes nothing but ENGINE_SEL. -/
theorem engineFor_state (s : State) : (engineFor s).2 = { s with engineSel := (engineFor s).2.engineSel } := by
  cases s; rename_i e _ _ _ _ _ _
  cases e <;> rfl

/-- What the accelerated single-block path can do: it needs the capability, and it changes WR and the count of free
values only (R212). -/
theorem accelSingle_eq (d : Direction) (keys : RoundKeys) (p : Block) (s : State) :
    accelSingle d keys p s =
      if s.platform.capAes then
        some (unpack1 (fourBlocks keys (pack1 p)), { s with wr := Config.deadWr s.draws, draws := s.draws + 1 })
      else none := by
  cases d <;> cases h : s.platform.capAes <;>
    simp [accelSingle, fourBlocksOf, encryptFourBlocks, decryptFourBlocks, h, State.setWr, State.releaseWr]

/-- The transform of a block changes WR and the count of free values only. -/
theorem transformBlock_state {d : Direction} {tag : Tag} {keys : RoundKeys} {p c : Block} {s t : State}
    (h : transformBlock d tag keys p s = some (c, t)) : t = { s with wr := t.wr, draws := t.draws } := by
  cases tag with
  | generic => cases d <;> simp only [transformBlock, Option.some.injEq, Prod.mk.injEq] at h <;> rw [← h.2]
  | accel =>
    simp only [transformBlock, accelSingle_eq] at h
    split at h
    · simp only [Option.some.injEq, Prod.mk.injEq] at h
      rw [← h.2]
    · contradiction

/-- The transform of a block gives a value unless the slot is an ACCEL slot without the capability. -/
theorem transformBlock_isSome {d : Direction} {tag : Tag} {keys : RoundKeys} {p : Block} {s : State}
    (h : tag = .accel → s.platform.capAes = true) : ∃ r, transformBlock d tag keys p s = some r := by
  cases tag with
  | generic => cases d <;> exact ⟨_, rfl⟩
  | accel => simp [transformBlock, accelSingle_eq, h rfl]

/-! ### The meanings -/

/-- What a block command can do: fault, or write one block and RESULT, and use WR. -/
theorem runBlockCommand_cases (d : Direction) (n : Nat) (v : U64) (s : State) :
    (∃ c, blockCommandFault n s = some c ∧ runBlockCommand d n v s = .next (s.raiseFault c v)) ∨
    (blockCommandFault n s = none ∧ ∃ c t,
      transformBlock d (s.slot n).tag ((s.slot n).keys d) (s.mem.readBlock (s.operandNat .srcAddr)) s = some (c, t) ∧
      t = { s with wr := t.wr, draws := t.draws } ∧
      runBlockCommand d n v s = .next ((t.storeBlock (s.operandNat .dstAddr) c).setResult 0)) := by
  cases h : blockCommandFault n s with
  | some c => exact .inl ⟨c, rfl, by simp [runBlockCommand, h]⟩
  | none =>
    obtain ⟨⟨c, t⟩, hr⟩ := transformBlock_isSome (d := d) (keys := (s.slot n).keys d)
      (p := s.mem.readBlock (s.operandNat .srcAddr)) (s := s) (capAes_of_noFault h)
    exact .inr ⟨rfl, c, t, hr, transformBlock_state hr, by simp [runBlockCommand, h, hr]⟩

/-- Expand of sixteen bytes read from memory. -/
theorem expand_readBytes (m : Memory) (a : Nat) : expand (m.readBytes a 16) = some (expandBlock (m.readBlock a)) := by
  have h : (m.readBytes a 16).length = 16 := Memory.length_readBytes m a 16
  simp only [expand, h, dite_true, Option.some.injEq]
  exact congrArg expandBlock (Vector.ext fun i hi => by simp [Memory.getElem_readBytes])

/-- What NEWCIPHER can do: fault, complete with KEY_SIZE, or create the instance. -/
theorem execNewcipher_cases (n : Nat) (s : State) :
    (∃ c, (newcipherOperandFault n s = some c ∨ newcipherOperandFault n s = none ∧ keyBufferFault s = some c) ∧
      execNewcipher n s = .next (s.raiseFault c (encode (.newcipher n)))) ∨
    (newcipherOperandFault n s = none ∧ s.operandNat .keyLen ≠ 16 ∧
      execNewcipher n s = .next ((s.invalidate n).completeError .keySize (s.operand .keyLen))) ∨
    (newcipherOperandFault n s = none ∧ s.operandNat .keyLen = 16 ∧ keyBufferFault s = none ∧
      execNewcipher n s = .next (((engineFor s).2.setSlot n
        ⟨true, (engineFor s).1, (expandBlock (s.mem.readBlock (s.operandNat .keyAddr))).1,
          (expandBlock (s.mem.readBlock (s.operandNat .keyAddr))).2⟩).setResult 0)) := by
  cases h : newcipherOperandFault n s with
  | some c => exact .inl ⟨c, .inl rfl, by simp [execNewcipher, h]⟩
  | none =>
    by_cases hk : s.operandNat .keyLen = 16
    · cases hb : keyBufferFault s with
      | some c => exact .inl ⟨c, .inr ⟨rfl, rfl⟩, by simp [execNewcipher, h, hk, hb]⟩
      | none => exact .inr (.inr ⟨rfl, hk, rfl, by simp [execNewcipher, h, hk, hb, expand_readBytes]⟩)
    · exact .inr (.inl ⟨rfl, hk, by simp [execNewcipher, h, hk]⟩)

/-- No cause NEWCIPHER reports is ACCEL_UNSUPPORTED, INTERNAL or ILLEGAL_COMMAND. -/
theorem newcipher_cause {n : Nat} {s : State} {c : FaultCause}
    (h : newcipherOperandFault n s = some c ∨ newcipherOperandFault n s = none ∧ keyBufferFault s = some c) :
    c = .badSlot ∨ c = .uninitOperand ∨ c = .addrRange ∨ c = .busError := by
  rcases h with h | ⟨-, h⟩
  · simp only [newcipherOperandFault] at h
    repeat' split at h
    all_goals simp_all
  · simp only [keyBufferFault] at h
    repeat' split at h
    all_goals simp_all

/-- Every command answers a next state: none is refused and none stops the machine. -/
theorem exec_answers (i : Instr) (s : State) : ∃ t, exec i s = .next t := by
  cases i with
  | newcipher n =>
    rcases execNewcipher_cases n s with ⟨c, -, h⟩ | ⟨-, -, h⟩ | ⟨-, -, -, h⟩ <;> exact ⟨_, h⟩
  | blocksize => exact ⟨_, rfl⟩
  | encrypt n => rcases runBlockCommand_cases .encrypt n (encode (.encrypt n)) s with ⟨c, -, h⟩ | ⟨-, c, t, -, -, h⟩ <;>
      exact ⟨_, h⟩
  | decrypt n => rcases runBlockCommand_cases .decrypt n (encode (.decrypt n)) s with ⟨c, -, h⟩ | ⟨-, c, t, -, -, h⟩ <;>
      exact ⟨_, h⟩

/-! ### The host interface -/

/-- An aligned 64-bit access to an offset of the block reaches the register at that offset. -/
theorem regOfAccess_eq {p : Platform} {addr : U64} {off : Nat} (h : addr.toNat = p.mmioBase.toNat + off) :
    regOfAccess p addr 8 = regAt off := by
  simp [regOfAccess, h]

@[simp] theorem regOfAccess_base (p : Platform) : regOfAccess p p.mmioBase 8 = some .cmd := by
  rw [regOfAccess_eq (off := 0) rfl]; rfl

/-- What a step can do, by the access it takes. -/
theorem step_cases {s t : State} (h : step s = .next t) :
    (s.inbox = [] ∧ t = s) ∨
    ∃ x rest, s.inbox = x :: rest ∧
      let u := { s with inbox := rest }
      ((∃ v, (∃ addr, x = .writeReg addr 8 v ∧ regOfAccess s.platform addr 8 = some .cmd) ∧ onCmdWrite v u = .next t) ∨
       (∃ addr v r, x = .writeReg addr 8 v ∧ regOfAccess s.platform addr 8 = some (.operand r) ∧
          t = u.writeOperand r v) ∨
       ((∃ addr v r, x = .writeReg addr 8 v ∧ regOfAccess s.platform addr 8 = some r ∧ r ≠ .cmd ∧
          ∀ q, r ≠ .operand q) ∧ t = u) ∨
       (∃ addr y, x = .readReg addr 8 ∧ t = u.logRead (.reg y)) ∨
       (∃ addr data, x = .storeBytes addr data ∧ addr.toNat + data.length ≤ addressSpace ∧
          t = { u with mem := s.mem.writeBytes addr.toNat data }) ∨
       (∃ addr k, x = .loadBytes addr k ∧ t = u.logRead (.bytes (s.mem.readBytes addr.toNat k))) ∨
       (x = .rst ∧ t = u.resetEvent)) := by
  simp only [step, takeNext] at h
  split at h
  · next hi => exact .inl ⟨hi, by simpa using h.symm⟩
  · next x rest hi =>
    refine .inr ⟨x, rest, hi, ?_⟩
    cases x with
    | writeReg addr bytes v =>
      have hb : ∀ r, regOfAccess s.platform addr bytes = some r → bytes = 8 := by
        intro r hr
        by_contra hne
        simp [regOfAccess, hne] at hr
      simp only [takeAccess] at h
      split at h
      · contradiction
      · next r hr =>
        obtain rfl := hb r hr
        cases r with
        | cmd => exact .inl ⟨v, ⟨addr, rfl, hr⟩, h⟩
        | operand o => exact .inr (.inl ⟨addr, v, o, rfl, hr, by simpa [writeRegister] using h.symm⟩)
        | status | result | faultCmd | reserved =>
          exact .inr (.inr (.inl ⟨⟨addr, v, _, rfl, hr, by simp, by simp⟩, by simpa [writeRegister] using h.symm⟩))
    | readReg addr bytes =>
      simp only [takeAccess] at h
      split at h
      · contradiction
      · next r hr =>
        have hb : bytes = 8 := by
          by_contra hne
          simp [regOfAccess, hne] at hr
        subst hb
        split at h
        · contradiction
        · next y _ => exact .inr (.inr (.inr (.inl ⟨addr, y, rfl, by simpa using h.symm⟩)))
    | storeBytes addr data =>
      simp only [takeAccess, storeHostBytes] at h
      split at h
      · contradiction
      · split at h
        · contradiction
        · next _ hr =>
          refine .inr (.inr (.inr (.inr (.inl ⟨addr, data, rfl, ?_, by simpa using h.symm⟩))))
          simpa [inRange] using hr
    | loadBytes addr k =>
      simp only [takeAccess, loadHostBytes] at h
      split at h
      · contradiction
      · split at h
        · contradiction
        · exact .inr (.inr (.inr (.inr (.inr (.inl ⟨addr, k, rfl, by simpa using h.symm⟩)))))
    | rst => exact .inr (.inr (.inr (.inr (.inr (.inr ⟨rfl, by simpa [takeAccess] using h.symm⟩)))))

/-- What a host write to CMD can do: be dropped, fault with ILLEGAL_COMMAND, or run the decoded command. -/
theorem onCmdWrite_cases {v : U64} {s t : State} (h : onCmdWrite v s = .next t) :
    (s.status.fault = true ∧ t = s) ∨
    (s.status.fault = false ∧ (∃ e, decode v = .error e) ∧ t = s.accept.raiseFault .illegalCommand v) ∨
    (s.status.fault = false ∧ ∃ i, decode v = .ok i ∧ exec i s.accept = .next t) := by
  simp only [onCmdWrite] at h
  split at h
  · next hf => exact .inl ⟨hf, by simpa using h.symm⟩
  · next hf =>
    have hf' : s.status.fault = false := by simpa using hf
    split at h
    · next e he => exact .inr (.inl ⟨hf', ⟨e, he⟩, by simpa using h.symm⟩)
    · next i hi => exact .inr (.inr ⟨hf', i, hi, h⟩)

end Sys2Proof.Machine
end

