-- ==== Sys2Proof/Laws/Invariants.lean ====
section
/-! SUPPORT. The induction of an invariant over a step, packaged once, and the addresses of the register block. -/

namespace Sys2Proof.Machine

/-! ### Steps that take a known access -/

/-- A host write of `v` to CMD runs the command prologue (R33, R223). -/
theorem step_cmd {s : State} {v : U64} {rest : List HostAccess}
    (h : s.inbox = .writeReg s.platform.mmioBase 8 v :: rest) : step s = onCmdWrite v { s with inbox := rest } := by
  simp [step, takeNext, h, takeAccess, writeRegister]

/-- The register at an operand register's offset (R31). -/
theorem regAt_offset (r : OpReg) : regAt r.offset = some (.operand r) := by cases r <;> rfl

/-- Every multiple of 8 from 0x50 to 0xF8 is a reserved register (R31). -/
theorem regAt_reserved {off : Nat} (h1 : 0x50 ≤ off) (h2 : off ≤ 0xF8) (h3 : off % 8 = 0) :
    regAt off = some .reserved := by
  have h4 : ¬(off % 8 ≠ 0 ∨ registerBlockBytes ≤ off) := by simp [registerBlockBytes]; omega
  simp only [regAt, if_neg h4]
  split <;> first | omega | rfl

/-- Only the address MMIO_BASE reaches CMD. -/
theorem addr_of_cmd {p : Platform} {addr : U64} (h : regOfAccess p addr 8 = some .cmd) : addr = p.mmioBase := by
  simp only [regOfAccess] at h
  split at h
  · contradiction
  · simp only [regAt] at h
    split at h
    · contradiction
    · apply BitVec.eq_of_toNat_eq
      split at h <;> first | omega | simp_all

/-- Only its own offset reaches an operand register. -/
theorem addr_of_operand {p : Platform} {addr : U64} {r : OpReg} (h : regOfAccess p addr 8 = some (.operand r)) :
    addr.toNat = p.mmioBase.toNat + r.offset := by
  simp only [regOfAccess] at h
  split at h
  · contradiction
  · simp only [regAt] at h
    split at h
    · contradiction
    · split at h <;> simp at h <;> subst h <;> simp [OpReg.offset] <;> omega

/-! ### Commands that meet their conditions -/

/-- A block command whose conditions of R226 hold passes its checks. -/
theorem noFault_of_ready {n : Nat} {s : State} (h : ReadyBlockCommand n s) : blockCommandFault n s = none := by
  obtain ⟨⟨h1, ⟨h2, h3, h4, h5⟩, h6, h7, h8, h9, h10, h11⟩, h12, h13, h14⟩ := h
  have ho : inexactOverlap (s.operandNat .srcAddr) (s.operandNat .dstAddr) = false := by
    rw [← Bool.not_eq_true, inexactOverlap_iff]
    unfold IdenticalOrDisjoint at h12
    omega
  simp [blockCommandFault, Nat.not_le.mpr h1, allWritten_blockOperands, h2, h3, h4, h5, h6, Nat.not_lt.mpr h8,
    Nat.not_lt.mpr h9, inRange_iff.mpr h10, inRange_iff.mpr h11, h13, h14, ho]
  exact h7

/-! ### Invariants -/

/-- A property that every host access keeps, with `hcmd` for the writes to CMD, is kept by a step. -/
theorem step_keeps {P : State → Prop} (hinbox : ∀ s x, P s → P { s with inbox := x })
    (hoperand : ∀ s r v, P s → P (s.writeOperand r v)) (hread : ∀ s x, P s → P (s.logRead x))
    (hstore : ∀ s a (d : List Byte), a + d.length ≤ addressSpace → P s → P { s with mem := s.mem.writeBytes a d })
    (hreset : ∀ s, P s → P s.resetEvent) (hcmd : ∀ v s t, P s → onCmdWrite v s = .next t → P t) {s t : State}
    (hs : P s) (h : step s = .next t) : P t := by
  rcases step_cases h with ⟨-, rfl⟩ | ⟨x, rest, hx, h⟩
  · exact hs
  · have hu := hinbox s rest hs
    rcases h with ⟨v, -, h⟩ | ⟨_, _, _, -, -, rfl⟩ | ⟨-, rfl⟩ | ⟨_, _, -, rfl⟩ | ⟨_, _, -, hl, rfl⟩ | ⟨_, _, -, rfl⟩ |
      ⟨-, rfl⟩
    · exact hcmd v _ _ hu h
    · exact hoperand _ _ _ hu
    · exact hu
    · exact hread _ _ hu
    · exact hstore _ _ _ hl hu
    · exact hread _ _ hu
    · exact hreset _ hu

/-- A property that the outcomes of a command keep is kept by a host write to CMD. -/
theorem onCmdWrite_keeps {P : State → Prop} (haccept : ∀ s, P s → P s.accept)
    (hfault : ∀ s c v, P s → P (s.raiseFault c v))
    (hkeySize : ∀ s n v, P s → P ((s.invalidate n).completeError .keySize v))
    (hcreate : ∀ s n k, P s →
      P (((engineFor s).2.setSlot n ⟨true, (engineFor s).1, (expandBlock k).1, (expandBlock k).2⟩).setResult 0))
    (hblocksize : ∀ s, P s → P (s.setResult 16))
    (hblock : ∀ s w d a c, a + 16 ≤ addressSpace → P s →
      P ((({ s with wr := w, draws := d } : State).storeBlock a c).setResult 0)) :
    ∀ v s t, P s → onCmdWrite v s = .next t → P t := by
  intro v s t hs h
  rcases onCmdWrite_cases h with ⟨-, rfl⟩ | ⟨-, -, rfl⟩ | ⟨-, i, -, h⟩
  · exact hs
  · exact hfault _ _ _ (haccept _ hs)
  · have hs := haccept _ hs
    generalize s.accept = s at hs h
    have run : ∀ d n v, runBlockCommand d n v s = .next t → P t := by
      intro d n v h
      rcases runBlockCommand_cases d n v s with ⟨c, -, h'⟩ | ⟨h0, c, u, -, hu, h'⟩ <;> rw [h'] at h <;> injection h with h <;>
        subst h
      · exact hfault _ _ _ hs
      · rw [hu]
        exact hblock _ _ _ _ _ (dst_inRange_of_noFault h0) hs
    cases i with
    | newcipher n =>
      rcases execNewcipher_cases n s with ⟨c, -, h'⟩ | ⟨-, -, h'⟩ | ⟨-, -, -, h'⟩ <;> simp only [exec, h'] at h <;>
        injection h with h <;> subst h
      · exact hfault _ _ _ hs
      · exact hkeySize _ _ _ hs
      · exact hcreate _ _ _ hs
    | blocksize =>
      injection h with h
      exact h ▸ hblocksize _ hs
    | encrypt n => exact run _ _ _ h
    | decrypt n => exact run _ _ _ h

end Sys2Proof.Machine
end

