-- ==== Sys2Proof/Laws/PerInstr.lean ====
section
/-! SUPPORT. The family `CommandWord`, per command: its word lies in its row of the match and mask table of
spec/30_encoding.md R102, with the slot index in bits 15:8. -/

namespace Sys2Proof.Laws.CommandWord

/-- R102: the mask of a command's row. -/
def rowMask : Instr → U64
  | .newcipher _ => 0xFFFFFFFFFFFF00FF#64
  | .blocksize => 0xFFFFFFFFFFFFFFFF#64
  | .encrypt _ => 0xFFFFFFFFFFFF00FF#64
  | .decrypt _ => 0xFFFFFFFFFFFF00FF#64

/-- R102: the match of a command's row. -/
def rowMatch : Instr → U64
  | .newcipher _ => 0x1#64
  | .blocksize => 0x2#64
  | .encrypt _ => 0x3#64
  | .decrypt _ => 0x4#64

/-- The word of a well-formed command matches its row, and its SLOT field holds the slot index. -/
def Statement (i : Instr) : Prop :=
  i.wellFormed = true → encode i &&& rowMask i = rowMatch i ∧ (slotField (encode i)).toNat = slotOf i

/-- The fields of a word built from an opcode and a slot byte. -/
theorem word_fields : ∀ x : Byte,
    ((x.setWidth 64 <<< 8 ||| 0x1#64) &&& 0xFFFFFFFFFFFF00FF#64 = 0x1#64 ∧ slotField (x.setWidth 64 <<< 8 ||| 0x1#64) = x) ∧
    ((x.setWidth 64 <<< 8 ||| 0x3#64) &&& 0xFFFFFFFFFFFF00FF#64 = 0x3#64 ∧ slotField (x.setWidth 64 <<< 8 ||| 0x3#64) = x) ∧
    ((x.setWidth 64 <<< 8 ||| 0x4#64) &&& 0xFFFFFFFFFFFF00FF#64 = 0x4#64 ∧ slotField (x.setWidth 64 <<< 8 ||| 0x4#64) = x) := by
  decide +kernel

theorem slot_toNat {s : Nat} (h : slotFits s = true) : (BitVec.ofNat 8 s).toNat = s := by
  simp only [slotFits, decide_eq_true_eq] at h
  simpa using h

theorem newcipher (s : Nat) : Statement (.newcipher s) := fun h =>
  have hw := (word_fields (BitVec.ofNat 8 s)).1
  ⟨hw.1, (congrArg BitVec.toNat hw.2).trans (slot_toNat h)⟩

theorem blocksize : Statement .blocksize := fun _ => by decide

theorem encrypt (s : Nat) : Statement (.encrypt s) := fun h =>
  have hw := (word_fields (BitVec.ofNat 8 s)).2.1
  ⟨hw.1, (congrArg BitVec.toNat hw.2).trans (slot_toNat h)⟩

theorem decrypt (s : Nat) : Statement (.decrypt s) := fun h =>
  have hw := (word_fields (BitVec.ofNat 8 s)).2.2
  ⟨hw.1, (congrArg BitVec.toNat hw.2).trans (slot_toNat h)⟩

end Sys2Proof.Laws.CommandWord
end

