-- ==== Sys2Proof/Laws/Tables.lean ====
section
/-! SUPPORT. The checks of the transcribed tables: both S-boxes against their algebraic forms (spec/41_generic_round.md
R150, spec/42_accelerated_round.md R181), the nibble tables against the linear maps (R182, R183), and the substitution
identity of R180. -/

namespace Sys2Proof.Machine

/-- The inverse of the linear part of `aesAffine`, with its constant removed. -/
def aesAffineInverse (z : Byte) : Byte := byColumns [74, 148, 41, 82, 164, 73, 146, 37] (z ^^^ 0x63)

/-- The inverse of `sboxLinear`. -/
def sboxLinearInverse (z : Byte) : Byte := byColumns [133, 11, 22, 44, 88, 176, 97, 194] z

theorem aesSbox_form_at : ∀ x : Byte, isInverse 0x1B x (aesAffineInverse (aesSbox x)) = true ∧
    aesSbox x = aesAffine (aesAffineInverse (aesSbox x)) := by
  decide +kernel

theorem sbox_form_at : ∀ x : Byte,
    isInverse 0xF5 (sboxLinear x ^^^ 0xD3) (sboxLinearInverse (sbox x ^^^ 0xD3)) = true ∧
      sbox x = sboxLinear (sboxLinearInverse (sbox x ^^^ 0xD3)) ^^^ 0xD3 := by
  decide +kernel

/-- R181: the table of AES_S is its algebraic form, `Aff(inv(x))` with inversion modulo 0x11B. -/
theorem aesSbox_form (x : Byte) : ∃ y, isInverse 0x1B x y = true ∧ aesSbox x = aesAffine y :=
  ⟨_, aesSbox_form_at x⟩

/-- R150: the table of SBOX is its algebraic form, `A(inv(A(x) ^ 0xD3)) ^ 0xD3` with inversion modulo 0x1F5. -/
theorem sbox_form (x : Byte) : ∃ y, isInverse 0xF5 (sboxLinear x ^^^ 0xD3) y = true ∧ sbox x = sboxLinear y ^^^ 0xD3 :=
  ⟨_, sbox_form_at x⟩

/-- R182: the nibble tables compute `A_in(x) ^ c_in`. -/
theorem tables_in : ∀ x : Byte,
    tableM1L[lowNibble x]'(lowNibble_lt x) ^^^ tableM1H[highNibble x]'(highNibble_lt x) = mapIn x ^^^ offsetIn := by
  decide +kernel

/-- R183: the nibble tables compute `A_out(y) ^ c_out`. -/
theorem tables_out : ∀ x : Byte,
    tableM2L[lowNibble x]'(lowNibble_lt x) ^^^ tableM2H[highNibble x]'(highNibble_lt x) = mapOut x ^^^ offsetOut := by
  decide +kernel

/-- R180: the substitution identity, with the maps and offsets of R182 and R183. -/
theorem sbox_eq_isomorphism (x : Byte) : sbox x = mapOut (aesSbox (mapIn x ^^^ offsetIn)) ^^^ offsetOut := by
  rw [← sboxA_eq_sbox, sboxA, tables_out, tables_in]

/-- R183: A_in and A_out are bijective: each has an inverse linear map. -/
theorem maps_bijective : ∀ x : Byte, byColumns [117, 233, 232, 53, 105, 151, 96, 110] (mapIn x) = x ∧ byColumns [80, 109, 79, 216, 160, 54, 155, 188] (mapOut x) = x := by
  decide +kernel

/-- R188: the inverse permutation undoes ShiftRows, and ShiftRows is the byte move that R187 describes. -/
theorem shiftRows_permutation :
    (∀ i : Fin 16, (shiftRowsISR[(shiftRowsSR[i]).toNat % 16]).toNat = i.val) ∧
      ∀ r c : Fin 4, (shiftRowsSR[r.val + 4 * c.val]).toNat = r.val + 4 * ((c.val + r.val) % 4) := by
  decide +kernel

end Sys2Proof.Machine
end

