-- ==== Sys2Proof/Tests/Slice0.lean ====
section
/-! SUPPORT. The model's own tests. Expected values come from spec/: the worked examples of the rules and the vectors of
spec/95_test_vectors.md, named at each test. Below them stands, for every obligation with hypotheses, a witness: a
concrete state and operands that meet them all, at the boundary values of its clauses. -/

namespace Sys2Proof.Tests

open Sys2Proof Sys2Proof.Machine

-- One theorem after the other: so many kernel evaluations at a time would each hold a thread.
set_option Elab.async false

/-! ### WellFormed: an ill-formed term for each check, and the largest slot that fits -/

theorem test_wellFormed_slot_refused : (Instr.newcipher 256).wellFormed = false ∧ (Instr.encrypt 256).wellFormed = false ∧
    (Instr.decrypt 256).wellFormed = false := by decide

theorem test_wellFormed_slot_accepted : (Instr.newcipher 255).wellFormed = true ∧ (Instr.encrypt 255).wellFormed = true ∧
    (Instr.decrypt 0).wellFormed = true ∧ Instr.blocksize.wellFormed = true := by decide

/-! ### Decode: words written out field by field, RSV ++ SLOT ++ OPC (R100, R102) -/

theorem test_decode_newcipher : decode (0#48 ++ 0b00000010#8 ++ 0b00000001#8) = .ok (.newcipher 2) := by decide

theorem test_decode_blocksize : decode (0#48 ++ 0b00000000#8 ++ 0b00000010#8) = .ok .blocksize := by decide

theorem test_decode_encrypt : decode (0#48 ++ 0b10000001#8 ++ 0b00000011#8) = .ok (.encrypt 129) := by decide

theorem test_decode_decrypt : decode (0#48 ++ 0b11111111#8 ++ 0b00000100#8) = .ok (.decrypt 255) := by decide

/-- The illegal words of V-N13 to V-N18. -/
theorem test_decode_illegal :
    decode 0x0000000000000000#64 = .error .unassignedOpcode ∧ decode 0x0000000000000102#64 = .error .slotOnBlocksize ∧
    decode 0x0000000000000005#64 = .error .unassignedOpcode ∧ decode 0x00000000000000FF#64 = .error .unassignedOpcode ∧
    decode 0x0000000000010003#64 = .error .reservedBits ∧ decode 0x8000000000000001#64 = .error .reservedBits := by
  decide

/-- R110: `0x01 + (s << 8)` and its like. -/
theorem test_encode : encode (.newcipher 2) = 0x201#64 ∧ encode .blocksize = 0x2#64 ∧ encode (.encrypt 1) = 0x103#64 ∧
    encode (.decrypt 255) = 0xFF04#64 := by decide

/-- A row's bits come to the decoder as they are numbered; a word of 16 bits has zeros above. -/
theorem test_decodeTableWord : decodeTableWord 64 0x0403 = some (.encrypt 4) ∧ decodeTableWord 16 0x10403 = some (.encrypt 4) ∧
    decodeTableWord 64 0x10403 = none := by decide

/-! ### The cipher -/

/-- The key, and the plaintext, of the standard vector (95_test_vectors.md section 1). -/
def kat : Block :=
  #v[0x01, 0x23, 0x45, 0x67, 0x89, 0xAB, 0xCD, 0xEF, 0xFE, 0xDC, 0xBA, 0x98, 0x76, 0x54, 0x32, 0x10]

/-- Its ciphertext. -/
def katCipher : Block :=
  #v[0x68, 0x1E, 0xDF, 0x34, 0xD2, 0x06, 0x96, 0x5E, 0x86, 0xB3, 0xE9, 0x4F, 0x53, 0x6E, 0x42, 0x46]

/-- R12: big-endian words. -/
theorem test_words : wordsOf kat = ⟨0x01234567#32, 0x89ABCDEF#32, 0xFEDCBA98#32, 0x76543210#32⟩ := by decide +kernel

/-- V-G5. -/
theorem test_round_functions : tau 0x12345678#32 = 0x9AC9DA4C#32 ∧ diffuse 0x00000001#32 = 0x01040405#32 ∧
    diffuse 0x12345678#32 = 0xAA4E9357#32 ∧ roundT 0x12345678#32 = 0xF32F23E8#32 ∧
    roundTByTables 0x12345678#32 = 0xF32F23E8#32 := by decide +kernel

/-- V-K5. -/
theorem test_key_functions : keyDiffuse 0x00000001#32 = 0x00802001#32 ∧ keyDiffuse 0x80000000#32 = 0x80401000#32 ∧
    keyT 0x00000001#32 = 0x446FA721#32 ∧ roundCK 0 = 0x00070E15#32 ∧ roundCK 9 = 0xFC030A11#32 ∧
    roundCK 31 = 0x646B7279#32 := by decide +kernel

/-- V-G1, row 0. -/
theorem test_round : roundF (wordsOf kat) 0xF12186F9#32 = ⟨0x89ABCDEF#32, 0xFEDCBA98#32, 0x76543210#32, 0x27FAD345#32⟩ := by
  decide +kernel

/-- V-K4 and R135. -/
theorem test_expand : (expandBlock kat).1[0] = 0xF12186F9#32 ∧ (expandBlock kat).1[1] = 0x41662B61#32 ∧
    (expandBlock kat).1[31] = 0x9124A012#32 ∧ (expandBlock kat).2[0] = 0x9124A012#32 := by decide +kernel

/-- V-G3, row 1: the standard vector. -/
theorem test_encryptBlock : encryptBlock (expandBlock kat).1 kat = katCipher := by decide +kernel

/-- R157. -/
theorem test_decryptBlock : decryptBlock (expandBlock kat).2 katCipher = kat := by decide +kernel

/-- V-A2, first table: y1, y2, y3 and z. -/
theorem test_sbox16 :
    let x := vec16 0 1 2 3 4 5 6 7 8 9 10 11 12 13 14 15
    let y2 := vec16 0x01 0xB4 0x24 0x91 0xE4 0x07 0xC1 0x22 0x57 0xE2 0x72 0xC7 0xB2 0x51 0x97 0x74
    aesenclast y2 maskNM = vec16 0x73 0xCA 0x4F 0x9D 0x66 0x97 0x87 0x8E 0x54 0xDE 0x39 0x9C 0x38 0x82 0x77 0xC9 ∧
      sbox16 x = vec16 0xD6 0x90 0xE9 0xFE 0xCC 0xE1 0x3D 0xB7 0x16 0xB6 0x14 0xC2 0x28 0xFB 0x2C 0x05 := by
  decide +kernel

/-- V-A3 and the table of R192: round 0 on the lanes KAT, zeros, ones and 00 .. 0F. -/
theorem test_round4 :
    let b := bufferOf kat (Vector.replicate 16 0) (Vector.replicate 16 0xFF#8) (vec16 0 1 2 3 4 5 6 7 8 9 10 11 12 13 14 15)
    let v := (round4 (loadVectors b) 0xF12186F9#32).v3
    (loadVectors b).v0[0] = 0x67#8 ∧ (loadVectors b).v0[3] = 0x01#8 ∧ lane v 0 = 0x27FAD345#32 ∧
      lane v 1 = 0x34E2E3A4#32 ∧ lane v 2 = 0x549BE362#32 ∧ lane v 3 = 0x1D6262D0#32 := by
  decide +kernel

/-- V-B1. -/
theorem test_pack1 : (pack1 kat)[15] = 0x10#8 ∧ (pack1 kat)[16] = 0#8 ∧ unpack1 (pack1 kat) = kat := by decide +kernel

/-- R139, R215: byte 0 in the most significant bits. -/
theorem test_ports : portOf kat = 0x0123456789ABCDEFFEDCBA9876543210#128 ∧
    packPort 0x0123456789ABCDEFFEDCBA9876543210#128 >>> 504 = 0x01#512 := by decide +kernel

/-! ### One step (95_test_vectors.md 2.6) -/

/-- The next state of an outcome; reset where there is none. -/
def after : Host.Outcome State Fault Refusal → State
  | .next t => t
  | .fault _ => State.reset
  | .refused _ => State.reset

/-- The outcome is a next state. -/
def goesOn : Host.Outcome State Fault Refusal → Bool
  | .next _ => true
  | .fault _ => false
  | .refused _ => false

theorem after_eq {o : Host.Outcome State Fault Refusal} (h : goesOn o = true) : o = .next (after o) := by
  cases o <;> first | rfl | contradiction

/-- The platform of 2.6, with either backend. -/
def platformOf (cap : Bool) : Platform := { Platform.initial with capAes := cap }

/-- The operands of 2.6. -/
def writtenOperands : Operands := ⟨⟨0x1000, true⟩, ⟨16, true⟩, ⟨0x2000, true⟩, ⟨16, true⟩, ⟨0x3000, true⟩, ⟨16, true⟩⟩

/-- The start state of 2.6 with the instance `sl` in slot 0: the key bytes at 1000 and the plaintext at 2000. -/
def startWith (cap : Bool) (sl : Slot) : State :=
  { State.resetOn (platformOf cap) 4 with
    operands := writtenOperands
    slots := [sl, Slot.reset, Slot.reset, Slot.reset]
    engineSel := EngineSel.ofTag (selectEngine cap)
    mem := (Memory.writeBlock [] 0x1000 kat).writeBlock 0x2000 kat }

/-- The start state of 2.6, with the standard key's instance. -/
def start (cap : Bool) : State := startWith cap ⟨true, selectEngine cap, (expandBlock kat).1, (expandBlock kat).2⟩

/-- The same with the all-zero round keys, which are mirrored and cheap to evaluate. -/
def ready (cap : Bool) : State :=
  startWith cap ⟨true, selectEngine cap, Vector.replicate 32 0, Vector.replicate 32 0⟩

/-- A state whose next step takes the command word `v`. -/
def issuing (s : State) (v : U64) : State := { s with inbox := [cmdAccess s.platform v] }

/-- V-C1. -/
theorem test_encrypt : (after (step (issuing (start false) 0x3))).mem.readBlock 0x3000 = katCipher ∧
    (after (step (issuing (start false) 0x3))).status.word = 0 := by decide +kernel

/-- V-C7: OVERLAP; FAULT_CMD holds the word and memory is unchanged. -/
theorem test_encrypt_overlap :
    let t := after (step (issuing ((ready false).writeOperand .dstAddr 0x200F) 0x3))
    t.status.word = 0x0801 ∧ t.faultCmd = 3 ∧ t.mem = (ready false).mem := by decide +kernel

/-- V-C21. -/
theorem test_decrypt :
    let s := ({ start false with mem := Memory.writeBlock [] 0x3000 katCipher }.writeOperand .srcAddr 0x3000).writeOperand
      .dstAddr 0x4000
    (after (step (issuing s 0x4))).mem.readBlock 0x4000 = kat := by decide +kernel

/-- V-C17 for DECRYPT: NO_INSTANCE comes before SRC_SHORT. -/
theorem test_decrypt_no_instance :
    (after (step (issuing ((ready true).writeOperand .srcLen 0xF) 0x104))).status.word = 0x0401 := by decide +kernel

/-- V-N1 and V-D1: the instance, and the decision that it caches. -/
theorem test_newcipher :
    let t := after (step (issuing { start true with engineSel := .unset } 0x101))
    (t.slot 1).valid = true ∧ (t.slot 1).encRk[0] = 0xF12186F9#32 ∧ (t.slot 1).decRk[0] = 0x9124A012#32 ∧
      t.engineSel = .accel ∧ t.status.word = 0 := by decide +kernel

/-- V-N3: the KEY_SIZE error, and the instance is gone. -/
theorem test_newcipher_key_size :
    let t := after (step (issuing ((ready false).writeOperand .keyLen 0xF) 0x1))
    t.status.word = 0x2002 ∧ t.result = 0xF ∧ (t.slot 0).valid = false := by decide +kernel

/-- V-N12: straight after reset. -/
theorem test_blocksize : (after (step (issuing State.reset 0x2))).result = 16 := by decide +kernel

/-- V-N19: a word written in the fault state is dropped. -/
theorem test_blocksize_dropped :
    let s := after (step (issuing (ready false) 0x0))
    (after (step (issuing s 0x2))).status.word = 0x0101 ∧ (after (step (issuing s 0x2))).result = 0 := by decide +kernel

/-- R34: a host read of STATUS gives the word. -/
theorem test_read_status :
    (after (step { ready false with status := ⟨true, false, 8⟩, inbox := [.readReg 0xF0000008 8] })).reads =
      [.reg 0x0801] := by decide +kernel

/-- R291: a host load gives the bytes of memory (the standard plaintext at 2000). -/
theorem test_load_bytes : (after (step { ready false with inbox := [.loadBytes 0x2001 2] })).reads =
    [.bytes [0x23, 0x45]] := by decide +kernel

/-- R280, R282: reset clears the slots and the decision and keeps host memory. -/
theorem test_reset_event :
    let t := after (step { ready true with inbox := [.rst] })
    (t.slot 0).valid = false ∧ t.engineSel = .unset ∧ t.written .srcAddr = false ∧ t.mem = (ready true).mem := by
  decide +kernel

/-- `withFetchWord` places the word that the next step runs. -/
theorem test_withFetchWord : (after (step (State.reset.withFetchWord 64 0x2))).result = 16 := by decide +kernel

/-! ### Witnesses: the hypotheses of each obligation are met -/

/-- The cheap start state in the fault state. -/
def faulted : State := { ready false with status := ⟨true, false, 0x08#8⟩, faultCmd := 3 }

/-- The register block's base in the states above. -/
def base : U64 := 0xF0000000

theorem exec_after (i : Instr) (s : State) : exec i s = .next (after (exec i s)) := by
  obtain ⟨t, h⟩ := exec_answers i s
  rw [h, after]

theorem witness_DecodeOfEncodeIsTheCommand : ∀ i ∈ [Instr.newcipher 0, .newcipher 255, .blocksize, .encrypt 255, .decrypt 255],
    i.wellFormed = true := by decide +kernel

theorem witness_EncodeOfDecodeIsTheWord : decode 0xFF01#64 = .ok (.newcipher 255) ∧ decode 0x0004#64 = .ok (.decrypt 0) := by
  decide +kernel

/-- Each clause, at its boundary: bit 16, bit 63, opcodes 0 and 5, SLOT 1. -/
theorem witness_IllegalWordsFault : [0x10003#64, 0x8000000000000001#64, 0x0#64, 0x5#64, 0x102#64].Forall fun v =>
    (issuing (ready false) v).inbox = [.writeReg (ready false).platform.mmioBase 8 v] ∧ (ready false).status.fault = false ∧
    ((v >>> 16 ≠ 0 ∨ v.toNat % 256 = 0 ∨ 4 < v.toNat % 256) ∨ (v.toNat % 256 = 2 ∧ v.toNat / 256 % 256 ≠ 0)) := by
  decide +kernel

theorem witness_StepRunsTheDecodedCommand :
    (issuing faulted 0x3).inbox = [.writeReg faulted.platform.mmioBase 8 0x3] ∧ faulted.status.fault = true ∧
    (ready true).status.fault = false ∧ decode 0x5#64 = .error .unassignedOpcode ∧ decode 0x3#64 = .ok (.encrypt 0) := by
  decide +kernel

theorem witness_IdleEngineHoldsItsState : State.reset.inbox = [] := rfl

theorem witness_EveryAcceptedCommandEndsInOneOutcome : [0x2#64, 0x0#64].Forall fun v =>
    (issuing State.reset v).inbox = [.writeReg State.reset.platform.mmioBase 8 v] ∧ State.reset.status.fault = false := by
  decide +kernel

theorem witness_FaultsDoNotNest :
    (issuing faulted 0x3).status.fault = true ∧ step (issuing faulted 0x3) = .next faulted ∧
      ∀ rest, (issuing faulted 0x3).inbox ≠ .rst :: rest :=
  ⟨rfl, rfl, fun _ h => by cases h⟩

/-- The state with one host access waiting. -/
def facing (s : State) (x : HostAccess) : State := { s with inbox := [x] }

theorem witness_OperandWriteTakesEffect :
    [OpReg.keyAddr, .keyLen, .srcAddr, .srcLen, .dstAddr, .dstLen].Forall fun r =>
      let addr := base + BitVec.ofNat 64 r.offset
      let s := facing (ready false) (.writeReg addr 8 0x5000)
      addr.toNat = s.platform.mmioBase.toNat + r.offset ∧ s.inbox = [.writeReg addr 8 0x5000] := by decide +kernel

/-- Every clause, the reserved range at both ends. -/
theorem witness_RegisterReadsGiveTheirValues : [0x00, 0x08, 0x10, 0x18, 0x20, 0x48, 0x50, 0xF8].Forall fun off =>
    let addr := base + BitVec.ofNat 64 off
    let s := facing (ready false) (.readReg addr 8)
    addr.toNat = s.platform.mmioBase.toNat + off ∧ s.inbox = [.readReg addr 8] ∧ s.written .keyAddr = true ∧
      s.written .dstLen = true := by decide +kernel

theorem witness_UnwrittenOperandReadRefused :
    let s := facing State.reset (.readReg 0xF0000020 8)
    (0xF0000020#64).toNat = s.platform.mmioBase.toNat + OpReg.keyAddr.offset ∧ s.inbox = [.readReg 0xF0000020 8] ∧
      s.written .keyAddr = false := by decide +kernel

theorem witness_ReadOnlyWritesIgnored : [0x08, 0x10, 0x18, 0x50, 0xF8].Forall fun off =>
    let addr := base + BitVec.ofNat 64 off
    let s := facing State.reset (.writeReg addr 8 1)
    addr.toNat = s.platform.mmioBase.toNat + off ∧ s.inbox = [.writeReg addr 8 1] ∧
      (off = 0x08 ∨ off = 0x10 ∨ off = 0x18 ∨ (0x50 ≤ off ∧ off ≤ 0xF8 ∧ off % 8 = 0)) := by decide +kernel

/-- A narrow access at the base, a misaligned one, and bytes that meet the block at its first and its last byte. -/
theorem witness_OtherRegisterAccessesRefused :
    let narrow := facing State.reset (.writeReg base 4 0)
    let odd := facing State.reset (.readReg 0xF0000001 8)
    let low := facing State.reset (.storeBytes 0xEFFFFFFF [1, 2])
    let high := facing State.reset (.loadBytes 0xF00000FF 2)
    (narrow.platform.mmioBase.toNat ≤ base.toNat ∧ 4 ≠ 8 ∧ narrow.inbox = [.writeReg base 4 0]) ∧
    (base.toNat < narrow.platform.mmioBase.toNat + 256 ∧ (0xF0000001#64).toNat < odd.platform.mmioBase.toNat + 256) ∧
    (odd.platform.mmioBase.toNat ≤ (0xF0000001#64).toNat ∧
      ((0xF0000001#64).toNat - odd.platform.mmioBase.toNat) % 8 ≠ 0 ∧ odd.inbox = [.readReg 0xF0000001 8]) ∧
    (low.inbox = [.storeBytes 0xEFFFFFFF [1, 2]] ∧ (0xEFFFFFFF#64).toNat ≤ 0xF0000000 ∧
      0xF0000000 < (0xEFFFFFFF#64).toNat + [1#8, 2#8].length ∧ low.platform.mmioBase.toNat ≤ 0xF0000000) ∧
    (high.inbox = [.loadBytes 0xF00000FF 2] ∧ (0xF00000FF#64).toNat ≤ 0xF00000FF ∧
      0xF00000FF < (0xF00000FF#64).toNat + 2 ∧ 0xF00000FF < high.platform.mmioBase.toNat + 256) := by decide +kernel

theorem witness_BlocksizeReturnsSixteen :
    (issuing State.reset 0x2).inbox = [.writeReg State.reset.platform.mmioBase 8 0x2#64] ∧
      State.reset.status.fault = false ∧
      [0x102#64, 0x10002#64].Forall fun v =>
        (issuing State.reset v).inbox = [.writeReg State.reset.platform.mmioBase 8 v] ∧ v.toNat % 256 = 2 ∧ v ≠ 0x2#64 := by
  decide +kernel

/-- With the decision cached and not, in the first and the last slot, and for a key that ends at the top of memory. -/
theorem witness_NewcipherCreatesTheInstance :
    ReadyNewcipher 0 (ready false) ∧ (ready false).engineSel ≠ .unset ∧
    ReadyNewcipher 3 { ready true with engineSel := .unset } ∧
    ReadyNewcipher 0 ((ready true).writeOperand .keyAddr 0xFFFFFFFFFFFFFFF0) := by decide +kernel

theorem witness_WrongKeyLengthIsARecoverableError : [0#64, 15#64, 17#64, 0xFFFFFFFFFFFFFFFF#64].Forall fun len =>
    let s := (ready false).writeOperand .keyLen len
    3 < s.nslots ∧ s.written .keyAddr = true ∧ s.written .keyLen = true ∧ s.operandNat .keyLen ≠ 16 := by decide +kernel

/-- Both backends, disjoint, adjacent and identical ranges, and a source at the top of memory. -/
theorem witness_EncryptWritesTheCiphertext :
    [ready false, ready true, (ready true).writeOperand .dstAddr 0x2010, (ready true).writeOperand .dstAddr 0x2000,
      (ready true).writeOperand .srcAddr 0xFFFFFFFFFFFFFFF0].Forall fun s => ReadyBlockCommand 0 s ∧ s.mem.wf = true := by
  decide +kernel

theorem witness_DecryptWritesThePlaintext :
    [ready false, ready true].Forall fun s => ReadyBlockCommand 0 s ∧ s.mem.wf = true := by
  decide +kernel

theorem witness_FaultsArePrecise : [0x0#64, 0x401#64, 0x103#64, 0x404#64].Forall fun v =>
    (issuing (ready true) v).inbox = [.writeReg (ready true).platform.mmioBase 8 v] ∧ (ready true).status.fault = false ∧
    goesOn (step (issuing (ready true) v)) = true ∧ (after (step (issuing (ready true) v))).status.fault = true := by
  decide +kernel

/-- The states in which each cause of R255 comes first: the slot, the state, the cause. -/
def blockFaultCases : List (Nat × State × FaultCause) :=
  let s := ready true
  [(4, s, .badSlot), (0, { s with operands := Operands.reset }, .uninitOperand), (1, s, .noInstance),
   (0, { s with platform := platformOf false }, .accelUnsupported), (0, s.writeOperand .srcLen 15, .srcShort),
   (0, s.writeOperand .dstLen 15, .dstShort), (0, s.writeOperand .srcAddr 0xFFFFFFFFFFFFFFF1, .addrRange),
   (0, s.writeOperand .dstAddr 0x1FF1, .overlap), (0, s.writeOperand .dstAddr 0xF00000FF, .busError)]

/-- The check that BlockCommandFaultPriority makes, for one state: the first true condition has the cause. -/
theorem witness_BlockCommandFaultPriority :
    (∀ x ∈ blockFaultCases,
      let s := x.2.1
      let sa := s.operandNat .srcAddr
      let da := s.operandNat .dstAddr
      List.find? (·.1)
        [(decide (s.nslots ≤ x.1), FaultCause.badSlot),
         (!(s.written .srcAddr && s.written .srcLen && s.written .dstAddr && s.written .dstLen), .uninitOperand),
         (!(s.slot x.1).valid, .noInstance),
         (decide ((s.slot x.1).tag = .accel ∧ s.platform.capAes = false), .accelUnsupported),
         (decide (s.operandNat .srcLen < 16), .srcShort), (decide (s.operandNat .dstLen < 16), .dstShort),
         (decide (2 ^ 64 < sa + 16 ∨ 2 ^ 64 < da + 16), .addrRange),
         (decide (sa < da + 16 ∧ da < sa + 16 ∧ sa ≠ da), .overlap),
         (!(memAdmit s.platform sa 16 .read && memAdmit s.platform da 16 .write), .busError)] = some (true, x.2.2)) ∧
    ReadyBlockCommand 0 (ready true) ∧ (ready true).status.fault = false := by
  decide +kernel

theorem witness_NewcipherFaultPriority :
    let s := ready false
    let high := s.writeOperand .keyAddr 0xFFFFFFFFFFFFFFF1
    let block := s.writeOperand .keyAddr 0xEFFFFFF1
    s.nslots ≤ 4 ∧ (3 < State.reset.nslots ∧ ¬(State.reset.written .keyAddr = true ∧ State.reset.written .keyLen = true)) ∧
    (3 < high.nslots ∧ high.written .keyAddr = true ∧ high.written .keyLen = true ∧ high.operandNat .keyLen = 16 ∧
      2 ^ 64 < high.operandNat .keyAddr + 16) ∧
    (3 < block.nslots ∧ block.written .keyAddr = true ∧ block.written .keyLen = true ∧ block.operandNat .keyLen = 16 ∧
      block.operandNat .keyAddr + 16 ≤ 2 ^ 64 ∧ memAdmit block.platform (block.operandNat .keyAddr) 16 .read = false) := by
  decide +kernel

/-- The clause without a fault: a wrong key length with a key out of range, and keys that end at the top of memory and where
the register block begins. -/
theorem witness_NewcipherFaultPriority_noFault :
    (let s := ((ready false).writeOperand .keyLen 17).writeOperand .keyAddr 0xFFFFFFFFFFFFFFF1
     s.status.fault = false ∧ 3 < s.nslots ∧ s.written .keyAddr = true ∧ s.written .keyLen = true ∧
       s.operandNat .keyLen ≠ 16) ∧
    [0xFFFFFFFFFFFFFFF0#64, 0xEFFFFFF0#64].Forall fun a =>
      let s := (ready false).writeOperand .keyAddr a
      s.status.fault = false ∧ 3 < s.nslots ∧ s.written .keyAddr = true ∧ s.written .keyLen = true ∧
        s.operandNat .keyAddr + 16 ≤ 2 ^ 64 ∧ memAdmit s.platform (s.operandNat .keyAddr) 16 .read = true := by
  decide +kernel

/-- Overlap by one byte and by fifteen, at either end; identical and adjacent ranges. -/
theorem witness_InexactOverlapFaults :
    ([0x2001#64, 0x200F#64, 0x1FF1#64, 0x1FFF#64].Forall fun da =>
      let s := (ready false).writeOperand .dstAddr da
      ReadyUpToOverlap 0 s ∧ s.operandNat .srcAddr < s.operandNat .dstAddr + 16 ∧
        s.operandNat .dstAddr < s.operandNat .srcAddr + 16 ∧ s.operandNat .srcAddr ≠ s.operandNat .dstAddr) ∧
    ([0x2000#64, 0x2010#64, 0x1FF0#64].Forall fun da =>
      let s := (ready false).writeOperand .dstAddr da
      ReadyUpToOverlap 0 s ∧ IdenticalOrDisjoint (s.operandNat .srcAddr) (s.operandNat .dstAddr) ∧ BuffersAdmitted s) := by
  decide +kernel

/-- A range of 16 bytes at `a` that holds the byte `x` of the register block. -/
abbrev holdsBlockByte (a x : Nat) : Prop :=
  a ≤ x ∧ x < a + 16 ∧ base.toNat ≤ x ∧ x < base.toNat + 256

/-- Buffers that hold the first and the last byte of the register block. -/
theorem witness_RegisterBlockIsNeverABuffer :
    [(0xEFFFFFF1#64, 0xF0000000), (0xF00000FF#64, 0xF00000FF)].Forall fun c =>
      let s := (ready false).writeOperand .srcAddr c.1
      let d := (ready false).writeOperand .dstAddr c.1
      (ReadyUpToOverlap 0 s ∧ IdenticalOrDisjoint (s.operandNat .srcAddr) (s.operandNat .dstAddr) ∧
        holdsBlockByte (s.operandNat .srcAddr) c.2) ∧
      (ReadyUpToOverlap 0 d ∧ IdenticalOrDisjoint (d.operandNat .srcAddr) (d.operandNat .dstAddr) ∧
        holdsBlockByte (d.operandNat .dstAddr) c.2) := by
  decide +kernel

/-- The same for the key buffer. -/
theorem witness_RegisterBlockIsNeverABuffer_key :
    [(0xEFFFFFF1#64, 0xF0000000), (0xF00000FF#64, 0xF00000FF)].Forall fun c =>
      let k := (ready false).writeOperand .keyAddr c.1
      3 < k.nslots ∧ k.written .keyAddr = true ∧ k.written .keyLen = true ∧ k.operandNat .keyLen = 16 ∧
        k.operandNat .keyAddr + 16 ≤ 2 ^ 64 ∧ holdsBlockByte (k.operandNat .keyAddr) c.2 := by
  decide +kernel

/-- A run that succeeds and one that faults. -/
theorem witness_BlockCommandFrame :
    exec (.encrypt 0) (ready true) = .next (after (exec (.encrypt 0) (ready true))) ∧
      exec (.decrypt 4) (ready true) = .next (after (exec (.decrypt 4) (ready true))) :=
  ⟨exec_after _ _, exec_after _ _⟩

theorem witness_NewcipherAndBlocksizeFrame :
    exec (.newcipher 0) (ready true) = .next (after (exec (.newcipher 0) (ready true))) ∧
      exec .blocksize State.reset = .next (after (exec .blocksize State.reset)) :=
  ⟨exec_after _ _, exec_after _ _⟩

/-- Memories that agree on the block and on the key and differ elsewhere. -/
theorem witness_CommandsReadOnlyTheirBuffers :
    let s := ready true
    let m := s.mem.write 0x2010 0x5A
    ReadyBlockCommand 0 s ∧ ReadyNewcipher 0 s ∧ m ≠ s.mem ∧
      m.readBlock (s.operandNat .srcAddr) = s.mem.readBlock (s.operandNat .srcAddr) ∧
      m.readBlock (s.operandNat .keyAddr) = s.mem.readBlock (s.operandNat .keyAddr) ∧ s.mem.wf = true ∧ m.wf = true := by
  decide +kernel

theorem witness_KeyScheduleRecurrence : 31 < 32 := by decide

theorem witness_EncryptBlockFollowsTheRounds : 3 < 4 ∧ 31 < 32 := by decide

theorem witness_PortsCarryTheByteStrings : 0 < 16 ∧ 0 < 64 := by decide

theorem witness_ExpandMirrorsTheKeys : ∃ enc dec, expand (List.replicate 16 0) = some (enc, dec) :=
  ⟨_, _, dif_pos List.length_replicate⟩

theorem witness_DecryptInvertsEncrypt : ∃ enc dec, expand kat.toList = some (enc, dec) :=
  ⟨_, _, dif_pos (Vector.length_toList ..)⟩

/-- Buffers that agree in lane 3 and differ in lane 0. -/
theorem witness_LanesAreIndependent :
    let p := bufferOf kat kat kat kat
    let q := bufferOf katCipher kat kat kat
    laneBlock p 3 = laneBlock q 3 ∧ p ≠ q ∧ (encryptFourBlocks true (Vector.replicate 32 0) p).isSome = true ∧
      (decryptFourBlocks true (Vector.replicate 32 0) q).isSome = true := by
  decide +kernel

theorem witness_SingleBlockPathsAgree : (ready true).platform.capAes = true := rfl

/-- The state after an ENCRYPT, with the source moved to what it wrote. -/
def second (cap : Bool) : State :=
  ((after (exec (.encrypt 0) (ready cap))).writeOperand .srcAddr 0x3000).writeOperand .dstAddr 0x4000

theorem second_meets : [false, true].Forall fun cap =>
    ReadyBlockCommand 0 (ready cap) ∧ ((ready cap).slot 0).mirrored = true ∧ (ready cap).mem.wf = true ∧
    (second cap).slots = (after (exec (.encrypt 0) (ready cap))).slots ∧
    (second cap).platform = (after (exec (.encrypt 0) (ready cap))).platform ∧ ReadyBlockCommand 0 (second cap) ∧
    (second cap).operandNat .srcAddr = (ready cap).operandNat .dstAddr := by
  decide +kernel

theorem witness_RoundTripThroughTheMachine (cap : Bool) :
    ReadyBlockCommand 0 (ready cap) ∧ ((ready cap).slot 0).mirrored = true ∧ (ready cap).mem.wf = true ∧
    exec (.encrypt 0) (ready cap) = .next (after (exec (.encrypt 0) (ready cap))) ∧
    (second cap).mem = (after (exec (.encrypt 0) (ready cap))).mem ∧
    (second cap).slots = (after (exec (.encrypt 0) (ready cap))).slots ∧
    (second cap).platform = (after (exec (.encrypt 0) (ready cap))).platform ∧ ReadyBlockCommand 0 (second cap) ∧
    (second cap).operandNat .srcAddr = (ready cap).operandNat .dstAddr := by
  obtain ⟨hf, ht⟩ := second_meets
  cases cap
  · exact ⟨hf.1, hf.2.1, hf.2.2.1, exec_after _ _, rfl, hf.2.2.2⟩
  · exact ⟨ht.1, ht.2.1, ht.2.2.1, exec_after _ _, rfl, ht.2.2.2⟩

theorem witness_InPlaceIsExact :
    let s := (ready true).writeOperand .dstAddr 0x2000
    ReadyBlockCommand 0 s ∧ s.operandNat .srcAddr = s.operandNat .dstAddr ∧
      ([0x2010#64, 0x1FF0#64].Forall fun tmp => ReadyBlockCommand 0 (s.writeOperand .dstAddr tmp) ∧
        (tmp.toNat + 16 ≤ s.operandNat .srcAddr ∨ s.operandNat .srcAddr + 16 ≤ tmp.toNat)) ∧ s.mem.wf = true := by
  decide +kernel

/-- A state that meets the whole invariant, with an instance in slot 0, and the command it takes next. -/
def running (cap : Bool) : State := issuing (ready cap) 0x3

theorem running_meets (cap : Bool) : (running cap).inv = true := by
  cases cap <;> decide +kernel

theorem running_steps (cap : Bool) : step (running cap) = .next (after (step (running cap))) := by
  apply after_eq
  cases cap <;> decide +kernel

theorem witness_RoundKeyMirrorIsKept : (running true).mirrorInv = true ∧
    step (running true) = .next (after (step (running true))) := ⟨by decide +kernel, running_steps true⟩

theorem witness_DispatchDecisionIsKept : (running true).dispatchInv = true ∧
    step (running true) = .next (after (step (running true))) := ⟨by decide +kernel, running_steps true⟩

theorem witness_StatusStaysLegal : (running true).status.ok = true ∧
    step (running true) = .next (after (step (running true))) := ⟨by decide +kernel, running_steps true⟩

theorem witness_MemoryStaysCanonical : (running true).mem.wf = true ∧
    step (running true) = .next (after (step (running true))) := ⟨by decide +kernel, running_steps true⟩

theorem witness_ResetMeetsTheInvariant : 1 ≤ 256 ∧ 256 ≤ 256 ∧ 1 ≤ 1 ∧ 1 ≤ 256 ∧
    ({ Platform.initial with mmioBase := 0xFFFFFFFFFFFFFF00 } : Platform).mmioBase.toNat + 256 ≤ 2 ^ 64 := by decide +kernel

theorem witness_UnreachableCausesStayUnreached : (running true).dispatchInv = true ∧
    (running true).status.code ≠ 0x0A#8 ∧ (running true).status.code ≠ 0x0B#8 ∧
    step (running true) = .next (after (step (running true))) :=
  ⟨by decide +kernel, by decide +kernel, by decide +kernel, running_steps true⟩

/-- ENGINE_SEL set, unset, and a reset. -/
theorem witness_EngineSelIsWriteOnce :
    step (running true) = .next (after (step (running true))) ∧ (running true).engineSel ≠ .unset ∧
    (∀ rest, (running true).inbox ≠ .rst :: rest) ∧ (issuing State.reset 0x2).engineSel = .unset ∧
    (facing (ready true) .rst).inbox = .rst :: [] :=
  ⟨running_steps true, by decide +kernel, (fun _ h => by cases h), rfl, rfl⟩

theorem witness_ParametersNeverChange : step (running true) = .next (after (step (running true))) := running_steps true

/-- A NEWCIPHER that replaces slot 0, and a reset that empties it. -/
theorem witness_InstancesAreImmutable :
    let s := issuing ((ready false).writeOperand .keyLen 17) 0x1
    let r := facing (ready false) .rst
    goesOn (step s) = true ∧ (after (step s)).slot 0 ≠ s.slot 0 ∧
      goesOn (step r) = true ∧ (after (step r)).slot 0 ≠ r.slot 0 := by
  decide +kernel

theorem witness_OnlyTheHostWritesOperands :
    let s := facing (ready false) (.writeReg 0xF0000040 8 0x5000)
    goesOn (step s) = true ∧ (after (step s)).operand .dstAddr ≠ s.operand .dstAddr := by
  decide +kernel

theorem witness_ResetEventClearsTheEngine : (facing faulted .rst).inbox = .rst :: [] := rfl

/-- A key that ends at the top of memory, in the last slot. -/
theorem witness_BootOrderCreatesTheInstance :
    let s := ({ State.reset with
      inbox := [.writeReg (base + 0x20) 8 0xFFFFFFFFFFFFFFF0, .writeReg (base + 0x28) 8 16, .writeReg base 8 0x301] } : State)
    s.status.fault = false ∧ 3 < s.nslots ∧ (base + 0x20).toNat = s.platform.mmioBase.toNat + 0x20 ∧
      (base + 0x28).toNat = s.platform.mmioBase.toNat + 0x28 ∧ (0xFFFFFFFFFFFFFFF0#64).toNat + 16 ≤ 2 ^ 64 ∧
      memAdmit s.platform (0xFFFFFFFFFFFFFFF0#64).toNat 16 .read = true ∧
      s.inbox = [.writeReg (base + 0x20) 8 0xFFFFFFFFFFFFFFF0, .writeReg (base + 0x28) 8 16,
        .writeReg s.platform.mmioBase 8 (encode (.newcipher 3))] := by
  decide +kernel

/-- A store that ends at the top of memory and one that ends where the register block begins. -/
theorem witness_HostStoresReachMemory : [0xFFFFFFFFFFFFFFFE#64, 0xEFFFFFFE#64].Forall fun addr =>
    let s := facing (ready false) (.storeBytes addr [1, 2])
    s.inbox = [.storeBytes addr [1, 2]] ∧ addr.toNat + [1#8, 2#8].length ≤ 2 ^ 64 ∧
      meetsRegisterBlock s.platform addr.toNat [1#8, 2#8].length = false ∧ s.mem.wf = true := by
  decide +kernel

/-- A load that ends at the top of memory and one that ends where the register block begins. -/
theorem witness_HostStoresReachMemory_load : [0xFFFFFFFFFFFFFFFE#64, 0xEFFFFFFE#64].Forall fun addr =>
    let s := facing (ready false) (.loadBytes addr 2)
    s.inbox = [.loadBytes addr 2] ∧ addr.toNat + 2 ≤ 2 ^ 64 ∧ meetsRegisterBlock s.platform addr.toNat 2 = false := by
  decide +kernel

theorem witness_EveryAdmissionIsExpressible : 2 ^ 64 - 1 < 2 ^ 64 ∧ 2 ^ 64 ≤ 2 ^ 64 := by decide +kernel

/-- Two states that only the backend tells apart. -/
theorem witness_BackendIsUnobservable :
    (running false).dispatchInv = true ∧ (running true).dispatchInv = true ∧
      (running false).eraseBackend = (running true).eraseBackend ∧ running false ≠ running true := by
  decide +kernel

end Sys2Proof.Tests
end

