-- ==== Sys2Proof/Proofs/Scope.lean ====
section
/-! The statements about the conventions and the parameters of spec/00_scope.md: the two readings of a block (R12), the
parameters of a run (R9), the plain-data form of MemAdmit (log entry 2) and the state after reset (R49). -/

namespace Sys2Proof.Machine

/-! ### Words and blocks (R12) -/

@[simp] theorem getElem_blockOf (w0 w1 w2 w3 : Word) (i : Nat) (h : i < 16) :
    (blockOf w0 w1 w2 w3)[i] = byteOf (Words4.get ⟨w0, w1, w2, w3⟩ (i / 4)) (i % 4) := by
  simp [blockOf]

theorem wordsOf_blockOf (w0 w1 w2 w3 : Word) : wordsOf (blockOf w0 w1 w2 w3) = ⟨w0, w1, w2, w3⟩ := by
  simp [wordsOf, Words4.get, wordOf_byteOf]

/-- Byte 0 of a block is the most significant byte of W0. -/
theorem byteOf_wordsOf_x0 (b : Block) : byteOf (wordsOf b).x0 0 = b[0] := byteOf_wordOf_0 ..

theorem blockOf_wordsOf (b : Block) : blockOf (wordsOf b).x0 (wordsOf b).x1 (wordsOf b).x2 (wordsOf b).x3 = b := by
  refine Vector.ext fun i hi => ?_
  rw [getElem_blockOf]
  interval_cases i <;> simp [wordsOf, Words4.get]

/-- Settles O32: each reading of a block undoes the other, byte by byte. -/
theorem wordsAndBlocksAreInverse : Obligations.WordsAndBlocksAreInverse :=
  ⟨blockOf_wordsOf, fun _ => wordsOf_blockOf .., byteOf_wordsOf_x0⟩

/-! ### The parameters of a run (R9, R45) -/

/-- The run has the platform `p` and `n` slots. -/
def State.HasParameters (p : Platform) (n : Nat) (s : State) : Prop := s.platform = p ∧ s.nslots = n

@[simp] theorem engineFor_platform (s : State) : (engineFor s).2.platform = s.platform := by rw [engineFor_state]

@[simp] theorem engineFor_nslots (s : State) : (engineFor s).2.nslots = s.nslots := by rw [engineFor_state]; rfl

theorem State.hasParameters_setSlot {p : Platform} {n : Nat} {s : State} (k : Nat) (v : Slot) :
    (s.setSlot k v).HasParameters p n ↔ s.HasParameters p n := by
  simp [State.HasParameters]

theorem State.hasParameters_engineFor {p : Platform} {n : Nat} {s : State} :
    (engineFor s).2.HasParameters p n ↔ s.HasParameters p n := by
  simp [State.HasParameters]

theorem State.hasParameters_resetEvent {p : Platform} {n : Nat} {s : State} :
    s.resetEvent.HasParameters p n ↔ s.HasParameters p n := by
  simp [State.HasParameters, State.nslots]

/-- A host write to CMD keeps the parameters: only a write of a slot touches the list whose length is NSLOTS. -/
theorem onCmdWrite_hasParameters {p : Platform} {n : Nat} :
    ∀ v s t, s.HasParameters p n → onCmdWrite v s = .next t → t.HasParameters p n :=
  onCmdWrite_keeps (haccept := fun _ h => h) (hfault := fun _ _ _ h => h)
    (hkeySize := fun s k _ h => (s.hasParameters_setSlot k _).mpr h)
    (hcreate := fun _ _ _ h => (State.hasParameters_setSlot _ _).mpr (State.hasParameters_engineFor.mpr h))
    (hblocksize := fun _ h => h) (hblock := fun _ _ _ _ _ _ h => h)

theorem step_hasParameters {p : Platform} {n : Nat} {s t : State} (hs : s.HasParameters p n) (h : step s = .next t) :
    t.HasParameters p n :=
  step_keeps (P := State.HasParameters p n) (hinbox := fun _ _ h => h) (hoperand := fun _ _ _ h => h)
    (hread := fun _ _ h => h) (hstore := fun _ _ _ _ h => h)
    (hreset := fun _ h => State.hasParameters_resetEvent.mpr h) (hcmd := onCmdWrite_hasParameters) hs h

/-- Settles O52: having the parameters of the state before the step is an invariant of the step. -/
theorem parametersNeverChange : Obligations.ParametersNeverChange :=
  fun _ _ h => step_hasParameters ⟨rfl, rfl⟩ h

/-! ### MemAdmit as a list of windows (R70, R83; log entry 2) -/

theorem windowAdmits_iff {w : AdmitWindow} {a n : Nat} {k : AccessKind} : windowAdmits w a n k = true ↔
    w.kind = k ∧ (w.first ≤ a ∧ a ≤ w.last) ∧ (w.minLen ≤ n ∧ n ≤ w.maxLen) := by
  simp [windowAdmits, and_assoc]

/-- The window of one access. -/
def exactWindow (a n : Nat) (k : AccessKind) : AdmitWindow := ⟨k, a, a, n, n⟩

theorem windowAdmits_exactWindow {a n b m : Nat} {k j : AccessKind} :
    windowAdmits (exactWindow a n k) b m j = true ↔ k = j ∧ a = b ∧ n = m := by
  rw [windowAdmits_iff, Nat.le_antisymm_iff (a := a), Nat.le_antisymm_iff (a := n)]
  rfl

/-- One window for every access `f` admits at an address below `A` with a length below `N`. The bounds are variables, so
that no proof evaluates the list. -/
def windowsFor (f : Nat → Nat → AccessKind → Bool) (A N : Nat) : List AdmitWindow :=
  ((List.range A ×ˢ List.range N ×ˢ [AccessKind.read, .write]).filter fun x => f x.1 x.2.1 x.2.2).map
    fun x => exactWindow x.1 x.2.1 x.2.2

theorem mem_windowsFor {f : Nat → Nat → AccessKind → Bool} {A N : Nat} {w : AdmitWindow} :
    w ∈ windowsFor f A N ↔ ∃ a n k, (a < A ∧ n < N) ∧ f a n k = true ∧ exactWindow a n k = w := by
  have hk : ∀ k : AccessKind, k = .read ∨ k = .write := fun k => by cases k <;> simp
  simp [windowsFor, hk, and_assoc]

/-- Within the bounds the windows let through what `f` lets through. -/
theorem any_windowsFor {f : Nat → Nat → AccessKind → Bool} {A N a n : Nat} {k : AccessKind} (ha : a < A) (hn : n < N) :
    (windowsFor f A N).any (fun w => windowAdmits w a n k) = f a n k := by
  rw [Bool.eq_iff_iff, List.any_eq_true]
  constructor
  · rintro ⟨w, hw, hadmits⟩
    obtain ⟨b, m, j, -, hf, rfl⟩ := mem_windowsFor.mp hw
    obtain ⟨rfl, rfl, rfl⟩ := windowAdmits_exactWindow.mp hadmits
    exact hf
  · intro hf
    exact ⟨_, mem_windowsFor.mpr ⟨a, n, k, ⟨ha, hn⟩, hf, rfl⟩, windowAdmits_exactWindow.mpr ⟨rfl, rfl, rfl⟩⟩

theorem memAdmit_windowsFor {f : Nat → Nat → AccessKind → Bool} {A N a n : Nat} (p : Platform) (k : AccessKind)
    (ha : a < A) (hn : n < N) :
    memAdmit { p with windows := windowsFor f A N } a n k = (!meetsRegisterBlock p a n && f a n k) := by
  rw [memAdmit, any_windowsFor ha hn]
  rfl

/-- Settles O59: the address space has finitely many accesses, so one window for each admitted access will do. -/
theorem everyAdmissionIsExpressible : Obligations.EveryAdmissionIsExpressible := fun p f =>
  ⟨windowsFor f (2 ^ 64) (2 ^ 64 + 1), fun _ _ k ha hn => memAdmit_windowsFor p k ha (Nat.lt_add_one_of_le hn)⟩

/-! ### The state after reset (R49) -/

/-- After reset every slot has what an empty slot has. -/
theorem resetOn_slots_all {P : Slot → Bool} (p : Platform) (n : Nat) (h : P Slot.reset = true) :
    (State.resetOn p n).slots.all P = true := by
  rw [List.all_eq_true]
  intro sl hsl
  rwa [List.eq_of_mem_replicate hsl]

/-- The bounds of log entry 16 on the parameters are bounds on the platform and the number of slots. -/
theorem resetOn_platformOk {p : Platform} {n : Nat} (h1 : 1 ≤ n) (h2 : n ≤ 256) (hp : p.mmioBase.toNat + 256 ≤ 2 ^ 64) :
    (State.resetOn p n).platformOk = true := by
  have hn : (State.resetOn p n).nslots = n := List.length_replicate
  rw [State.platformOk, hn, decide_eq_true h1, decide_eq_true h2]
  exact decide_eq_true hp

/-- R41: after reset no slot is valid, so no keys could fail to mirror. -/
theorem resetOn_mirrorInv (p : Platform) (n : Nat) : (State.resetOn p n).mirrorInv = true :=
  resetOn_slots_all p n rfl

/-- R44: after reset ENGINE_SEL is UNSET and no slot is bound to an engine. -/
theorem resetOn_dispatchInv (p : Platform) (n : Nat) : (State.resetOn p n).dispatchInv = true := by
  rw [State.dispatchInv, Bool.and_eq_true]
  exact ⟨rfl, resetOn_slots_all p n rfl⟩

theorem resetOn_inv {p : Platform} {n : Nat} (h1 : 1 ≤ n) (h2 : n ≤ 256) (hp : p.mmioBase.toNat + 256 ≤ 2 ^ 64) :
    (State.resetOn p n).inv = true := by
  have hstatus : (State.resetOn p n).status.ok = true := rfl
  have hmem : (State.resetOn p n).mem.wf = true := rfl
  simp only [State.inv, resetOn_platformOk h1 h2 hp, hstatus, resetOn_mirrorInv, resetOn_dispatchInv, hmem, Bool.and_self]

/-- Settles O49: every part of the invariant holds after reset, and the model's own platform is within the bounds. -/
theorem resetMeetsTheInvariant : Obligations.ResetMeetsTheInvariant :=
  ⟨fun _ _ => resetOn_inv, resetOn_inv (p := Platform.initial) (n := Platform.initialSlots) (by decide) (by decide) (by decide)⟩

end Sys2Proof.Machine
end

