-- ==== Sys2Proof/Proofs/CommandOutcomes.lean ====
section
/-! What a command can do, as one list of cases for all four commands and as one equation per outcome of NEWCIPHER and of
a block command (spec/44_dispatch_facade.md R224 to R228), and what a command leaves of spec/10_state.md's state. -/

namespace Sys2Proof.Machine

/-! ### What a command can do -/

@[simp] theorem engineFor_slots (s : State) : (engineFor s).2.slots = s.slots := by rw [engineFor_state]

/-- A block command faults, or it writes one block and RESULT = 0 and uses WR. -/
theorem runBlockCommand_next {d : Direction} {n : Nat} {v : U64} {s t : State} (h : runBlockCommand d n v s = .next t) :
    (∃ c, t = s.raiseFault c v) ∨
    ∃ w k b, t = (({ s with wr := w, draws := k } : State).storeBlock (s.operandNat .dstAddr) b).setResult 0 := by
  rcases runBlockCommand_cases d n v s with ⟨c, -, hrun⟩ | ⟨-, b, u, -, hu, hrun⟩ <;> rw [hrun] at h <;>
    injection h with h
  · exact .inl ⟨c, h.symm⟩
  · exact .inr ⟨u.wr, u.draws, b, by rw [← h, ← hu]⟩

/-- What a command can do: fault, complete with KEY_SIZE, fill a slot, return the block size, or write one block. -/
theorem exec_cases {i : Instr} {s t : State} (h : exec i s = .next t) :
    (∃ c, t = s.raiseFault c (encode i)) ∨
    (∃ n, i = .newcipher n ∧ t = (s.invalidate n).completeError .keySize (s.operand .keyLen)) ∨
    (∃ n key, i = .newcipher n ∧ t = ((engineFor s).2.setSlot n
      ⟨true, (engineFor s).1, (expandBlock key).1, (expandBlock key).2⟩).setResult 0) ∨
    (i = .blocksize ∧ t = s.setResult 16) ∨
    (∃ w k b, t = (({ s with wr := w, draws := k } : State).storeBlock (s.operandNat .dstAddr) b).setResult 0) := by
  cases i with
  | newcipher n =>
    rcases execNewcipher_cases n s with ⟨c, -, hrun⟩ | ⟨-, -, hrun⟩ | ⟨-, -, -, hrun⟩ <;> rw [exec, hrun] at h <;>
      injection h with h
    · exact .inl ⟨c, h.symm⟩
    · exact .inr (.inl ⟨n, rfl, h.symm⟩)
    · exact .inr (.inr (.inl ⟨n, _, rfl, h.symm⟩))
  | blocksize =>
    injection h with h
    exact .inr (.inr (.inr (.inl ⟨rfl, h.symm⟩)))
  | encrypt n => exact (runBlockCommand_next h).imp_right fun h => .inr (.inr (.inr h))
  | decrypt n => exact (runBlockCommand_next h).imp_right fun h => .inr (.inr (.inr h))

/-! ### NEWCIPHER, outcome by outcome -/

theorem newcipherOperandFault_eq_none_iff {n : Nat} {s : State} : newcipherOperandFault n s = none ↔
    n < s.nslots ∧ s.written .keyAddr = true ∧ s.written .keyLen = true := by
  rw [newcipherOperandFault, allWritten_keyOperands]
  cases hka : s.written .keyAddr <;> cases hkl : s.written .keyLen <;> simp [ite_eq_iff]

theorem keyBufferFault_eq_none_iff {s : State} : keyBufferFault s = none ↔
    s.operandNat .keyAddr + 16 ≤ 2 ^ 64 ∧ memAdmit s.platform (s.operandNat .keyAddr) 16 .read = true := by
  rw [← inRange_iff, keyBufferFault]
  split_ifs <;> simp_all

/-- R224: one equation per outcome of NEWCIPHER. -/
theorem execNewcipher_of_operandFault {n : Nat} {s : State} {c : FaultCause} (h : newcipherOperandFault n s = some c) :
    execNewcipher n s = .next (s.raiseFault c (encode (.newcipher n))) := by
  simp [execNewcipher, h]

@[inherit_doc execNewcipher_of_operandFault]
theorem execNewcipher_of_keySize {n : Nat} {s : State} (h : newcipherOperandFault n s = none)
    (hk : s.operandNat .keyLen ≠ 16) :
    execNewcipher n s = .next ((s.invalidate n).completeError .keySize (s.operand .keyLen)) := by
  simp [execNewcipher, h, hk]

@[inherit_doc execNewcipher_of_operandFault]
theorem execNewcipher_of_bufferFault {n : Nat} {s : State} {c : FaultCause} (h : newcipherOperandFault n s = none)
    (hk : s.operandNat .keyLen = 16) (hb : keyBufferFault s = some c) :
    execNewcipher n s = .next (s.raiseFault c (encode (.newcipher n))) := by
  simp [execNewcipher, h, hk, hb]

@[inherit_doc execNewcipher_of_operandFault]
theorem execNewcipher_of_noFault {n : Nat} {s : State} (h : newcipherOperandFault n s = none)
    (hk : s.operandNat .keyLen = 16) (hb : keyBufferFault s = none) :
    execNewcipher n s = .next (((engineFor s).2.setSlot n
      ⟨true, (engineFor s).1, (expandBlock (s.mem.readBlock (s.operandNat .keyAddr))).1,
        (expandBlock (s.mem.readBlock (s.operandNat .keyAddr))).2⟩).setResult 0) := by
  simp [execNewcipher, h, hk, hb, expand_readBytes]

/-! ### Block commands, outcome by outcome -/

/-- R226: a block command that fails a check faults with its cause. -/
theorem runBlockCommand_of_fault {d : Direction} {n : Nat} {v : U64} {s : State} {c : FaultCause}
    (h : blockCommandFault n s = some c) : runBlockCommand d n v s = .next (s.raiseFault c v) := by
  simp [runBlockCommand, h]

theorem valid_of_noFault {n : Nat} {s : State} (h : blockCommandFault n s = none) : (s.slot n).valid = true := by
  cases hv : (s.slot n).valid with
  | true => rfl
  | false =>
    simp only [blockCommandFault, hv, Bool.not_false, if_true] at h
    split_ifs at h

/-! ### What a command leaves unchanged -/

/-- R42: a command changes no slot but the one a NEWCIPHER names. -/
theorem exec_slot {i : Instr} {s t : State} {k : Nat} (h : exec i s = .next t) (hi : i ≠ .newcipher k) :
    t.slot k = s.slot k := by
  have hk : ∀ n, i = .newcipher n → k ≠ n := fun n hn hkn => hi (hkn ▸ hn)
  rcases exec_cases h with ⟨_, rfl⟩ | ⟨n, hn, rfl⟩ | ⟨n, _, hn, rfl⟩ | ⟨-, rfl⟩ | ⟨_, _, _, rfl⟩
  · rfl
  · exact State.slot_setSlot_ne s _ (hk n hn)
  · exact (State.slot_setSlot_ne (engineFor s).2 _ (hk n hn)).trans (by rw [State.slot, engineFor_slots, State.slot])
  · rfl
  · rfl

/-- R30: no command writes an operand register. -/
theorem onCmdWrite_operands {o : Operands} : ∀ v s t, s.operands = o → onCmdWrite v s = .next t → t.operands = o :=
  onCmdWrite_keeps (P := fun s => s.operands = o) (haccept := fun _ h => h) (hfault := fun _ _ _ h => h)
    (hkeySize := fun _ _ _ h => h) (hcreate := fun s _ _ h => by rw [engineFor_state]; exact h)
    (hblocksize := fun _ h => h) (hblock := fun _ _ _ _ _ _ h => h)

/-- R44: no command changes ENGINE_SEL once it is set. -/
theorem onCmdWrite_engineSel {e : EngineSel} (he : e ≠ .unset) :
    ∀ v s t, s.engineSel = e → onCmdWrite v s = .next t → t.engineSel = e :=
  onCmdWrite_keeps (P := fun s => s.engineSel = e) (haccept := fun _ h => h) (hfault := fun _ _ _ h => h)
    (hkeySize := fun _ _ _ h => h)
    (hcreate := fun s _ _ h => ((engineFor_tag s).2.1 (h ▸ he)).trans h)
    (hblocksize := fun _ h => h) (hblock := fun _ _ _ _ _ _ h => h)

/-! ### What a step can do to the engine -/

/-- A step leaves every register and slot of the engine alone, takes a reset, takes a write to CMD, or takes a write to one
operand register. -/
theorem step_engine_cases {s t : State} (h : step s = .next t) :
    (∃ i m x, t = { s with inbox := i, mem := m, reads := x }) ∨
    (∃ rest, s.inbox = .rst :: rest) ∨
    (∃ v rest, s.inbox = .writeReg s.platform.mmioBase 8 v :: rest ∧ onCmdWrite v { s with inbox := rest } = .next t) ∨
    (∃ addr v r rest, s.inbox = .writeReg addr 8 v :: rest ∧ addr.toNat = s.platform.mmioBase.toNat + r.offset ∧
      t = ({ s with inbox := rest } : State).writeOperand r v) := by
  rcases step_cases h with ⟨-, rfl⟩ | ⟨x, rest, hx, h⟩
  · exact .inl ⟨_, _, _, rfl⟩
  · rcases h with ⟨v, ⟨addr, rfl, hreg⟩, h⟩ | ⟨addr, v, r, rfl, hreg, rfl⟩ | ⟨-, rfl⟩ | ⟨_, _, -, rfl⟩ |
      ⟨_, _, -, -, rfl⟩ | ⟨_, _, -, rfl⟩ | ⟨rfl, -⟩
    · obtain rfl := addr_of_cmd hreg
      exact .inr (.inr (.inl ⟨v, rest, hx, h⟩))
    · exact .inr (.inr (.inr ⟨addr, v, r, rest, hx, addr_of_operand hreg, rfl⟩))
    · exact .inl ⟨_, _, _, rfl⟩
    · exact .inl ⟨_, _, _, rfl⟩
    · exact .inl ⟨_, _, _, rfl⟩
    · exact .inl ⟨_, _, _, rfl⟩
    · exact .inr (.inl ⟨rest, hx⟩)

end Sys2Proof.Machine
end

