-- ==== Sys2Proof/Proofs/KeptByEveryStep.lean ====
section
/-! What every step keeps (spec/10_state.md): the round-key mirror (R41), the dispatch decision (R44, R222, R285), a legal
STATUS (R34, R251) and the canonical form of host memory (R70). -/

namespace Sys2Proof.Machine

/-! ### The round-key mirror (R41) -/

theorem Slot.mirrored_iff {sl : Slot} :
    sl.mirrored = true ↔ (sl.valid = true → ∀ i : Fin 32, sl.decRk[i.val] = sl.encRk[31 - i.val]) := by
  cases h : sl.valid <;> simp [Slot.mirrored, h]

/-- A slot that is not valid has no keys that could fail to mirror. -/
theorem Slot.mirrored_of_not_valid {sl : Slot} (h : sl.valid = false) : sl.mirrored = true :=
  Slot.mirrored_iff.mpr fun hv => absurd hv (by simp [h])

/-- R137: what Expand gives is mirrored. -/
theorem Slot.mirrored_expandBlock (tag : Tag) (key : Block) :
    (⟨true, tag, (expandBlock key).1, (expandBlock key).2⟩ : Slot).mirrored = true :=
  Slot.mirrored_iff.mpr fun _ i => getElem_mirrorKeys _ i.val i.isLt

theorem State.mirrorInv_setSlot {s : State} {n : Nat} {v : Slot} (hs : s.mirrorInv = true) (hv : v.mirrored = true) :
    (s.setSlot n v).mirrorInv = true :=
  slots_all_set hs hv

/-- Commands write a slot in two ways: they clear its VALID, or they put what Expand gives into it. -/
theorem onCmdWrite_mirrorInv : ∀ v s t, s.mirrorInv = true → onCmdWrite v s = .next t → t.mirrorInv = true :=
  onCmdWrite_keeps (P := fun s => s.mirrorInv = true) (haccept := fun _ h => h) (hfault := fun _ _ _ h => h)
    (hkeySize := fun _ _ _ h => State.mirrorInv_setSlot h (Slot.mirrored_of_not_valid rfl))
    (hcreate := fun s _ key h => State.mirrorInv_setSlot (s := (engineFor s).2)
      (by rwa [State.mirrorInv, engineFor_slots]) (Slot.mirrored_expandBlock _ key))
    (hblocksize := fun _ h => h) (hblock := fun _ _ _ _ _ _ h => h)

/-- Settles O45: host accesses leave the slots alone, reset empties them, and commands keep the mirror. -/
theorem roundKeyMirrorIsKept : Obligations.RoundKeyMirrorIsKept := fun _ _ =>
  step_keeps (P := fun s => s.mirrorInv = true) (hinbox := fun _ _ h => h) (hoperand := fun _ _ _ h => h)
    (hread := fun _ _ h => h) (hstore := fun _ _ _ _ h => h)
    (hreset := fun s _ => resetOn_mirrorInv s.platform s.nslots) (hcmd := onCmdWrite_mirrorInv)

/-! ### The dispatch decision (R44, R222, R285) -/

/-- R222: a valid slot is bound to the decision `tag`, and ENGINE_SEL `sel` caches one. -/
def Slot.boundTo (tag : Tag) (sel : EngineSel) (sl : Slot) : Bool :=
  !sl.valid || (decide (sl.tag = tag) && decide (sel ≠ .unset))

theorem Slot.boundTo_iff {tag : Tag} {sel : EngineSel} {sl : Slot} :
    sl.boundTo tag sel = true ↔ (sl.valid = true → sl.tag = tag ∧ sel ≠ .unset) := by
  cases h : sl.valid <;> simp [Slot.boundTo, h]

theorem State.dispatchInv_iff {s : State} : s.dispatchInv = true ↔
    (s.engineSel = .unset ∨ s.engineSel = EngineSel.ofTag (selectEngine s.platform.capAes)) ∧
      s.slots.all (Slot.boundTo (selectEngine s.platform.capAes) s.engineSel) = true := by
  rw [State.dispatchInv, Bool.and_eq_true, Bool.or_eq_true, decide_eq_true_iff, decide_eq_true_iff]
  rfl

theorem EngineSel.ofTag_ne_unset (t : Tag) : EngineSel.ofTag t ≠ .unset := by cases t <;> simp [EngineSel.ofTag]

theorem EngineSel.ofTag_injective {t u : Tag} (h : EngineSel.ofTag t = EngineSel.ofTag u) : t = u := by
  cases t <;> cases u <;> simp_all [EngineSel.ofTag]

/-- Under the dispatch invariant the dispatcher gives the decision for CAP_AES, whether it was cached or not. -/
theorem engineFor_of_dispatchInv {s : State} (hs : s.dispatchInv = true) :
    (engineFor s).1 = selectEngine s.platform.capAes ∧
      (engineFor s).2.engineSel = EngineSel.ofTag (selectEngine s.platform.capAes) := by
  obtain ⟨htag, hcached, hunset⟩ := engineFor_tag s
  by_cases h : s.engineSel = .unset
  · exact ⟨hunset h, by rw [← htag, hunset h]⟩
  · have hsel := (State.dispatchInv_iff.mp hs).1.resolve_left h
    have hkept := (hcached h).trans hsel
    exact ⟨EngineSel.ofTag_injective (htag.trans hkept), hkept⟩

/-- The state that caches the decision meets the dispatch invariant: a bound slot stays bound. -/
theorem State.dispatchInv_engineFor {s : State} (hs : s.dispatchInv = true) : (engineFor s).2.dispatchInv = true := by
  have hsel := (engineFor_of_dispatchInv hs).2
  have hslots := (State.dispatchInv_iff.mp hs).2
  rw [State.dispatchInv_iff, engineFor_platform, engineFor_slots, hsel]
  refine ⟨.inr rfl, ?_⟩
  rw [List.all_eq_true] at hslots ⊢
  exact fun sl hsl => Slot.boundTo_iff.mpr fun hv =>
    ⟨(Slot.boundTo_iff.mp (hslots sl hsl) hv).1, EngineSel.ofTag_ne_unset _⟩

theorem State.dispatchInv_setSlot {s : State} {n : Nat} {v : Slot} (hs : s.dispatchInv = true)
    (hv : v.boundTo (selectEngine s.platform.capAes) s.engineSel = true) : (s.setSlot n v).dispatchInv = true := by
  rw [State.dispatchInv_iff] at hs ⊢
  exact ⟨hs.1, slots_all_set hs.2 hv⟩

/-- Commands write a slot in two ways: they clear its VALID, or they bind it to the decision they cache. -/
theorem onCmdWrite_dispatchInv : ∀ v s t, s.dispatchInv = true → onCmdWrite v s = .next t → t.dispatchInv = true :=
  onCmdWrite_keeps (P := fun s => s.dispatchInv = true) (haccept := fun _ h => h) (hfault := fun _ _ _ h => h)
    (hkeySize := fun _ _ _ h => State.dispatchInv_setSlot h rfl)
    (hcreate := fun s _ _ h => by
      obtain ⟨htag, hsel⟩ := engineFor_of_dispatchInv h
      refine State.dispatchInv_setSlot (s := (engineFor s).2) (State.dispatchInv_engineFor h) ?_
      rw [Slot.boundTo_iff, engineFor_platform, hsel]
      exact fun _ => ⟨htag, EngineSel.ofTag_ne_unset _⟩)
    (hblocksize := fun _ h => h) (hblock := fun _ _ _ _ _ _ h => h)

/-- Settles O46: host accesses leave slots and ENGINE_SEL alone, reset clears both, and commands keep the invariant. -/
theorem dispatchDecisionIsKept : Obligations.DispatchDecisionIsKept := fun _ _ =>
  step_keeps (P := fun s => s.dispatchInv = true) (hinbox := fun _ _ h => h) (hoperand := fun _ _ _ h => h)
    (hread := fun _ _ h => h) (hstore := fun _ _ _ _ h => h)
    (hreset := fun s _ => resetOn_dispatchInv s.platform s.nslots) (hcmd := onCmdWrite_dispatchInv)

/-! ### STATUS (R34, R251) -/

/-- What a command does to STATUS: nothing, the KEY_SIZE error, or a fault (R252, R253). -/
theorem exec_status {i : Instr} {s t : State} (h : exec i s = .next t) :
    t.status = s.status ∨ t.status = ⟨s.status.fault, true, 0x20#8⟩ ∨
      ∃ c : FaultCause, t.status = ⟨true, false, c.code⟩ := by
  rcases exec_cases h with ⟨c, rfl⟩ | ⟨_, -, rfl⟩ | ⟨_, _, -, rfl⟩ | ⟨-, rfl⟩ | ⟨_, _, _, rfl⟩
  · exact .inr (.inr ⟨c, rfl⟩)
  · exact .inr (.inl rfl)
  · refine .inl ?_
    rw [engineFor_state]
    rfl
  · exact .inl rfl
  · exact .inl rfl

/-- R251: every fault cause has an assigned code. -/
theorem Status.ok_faulted (c : FaultCause) : (Status.faulted c).ok = true := by cases c <;> rfl

/-- A command that is not dropped was written with FAULT = 0, so the prologue leaves STATUS = 0 (R223). -/
theorem onCmdWrite_status_ok (v : U64) (s t : State) (hs : s.status.ok = true) (h : onCmdWrite v s = .next t) :
    t.status.ok = true := by
  rcases onCmdWrite_cases h with ⟨-, rfl⟩ | ⟨-, -, rfl⟩ | ⟨hf, i, -, h⟩
  · exact hs
  · exact Status.ok_faulted .illegalCommand
  · rcases exec_status h with h | h | ⟨c, h⟩
    · rw [h, State.accept_status, hf]; rfl
    · rw [h, State.accept_status, hf]; rfl
    · rw [h]; exact Status.ok_faulted c

/-- Settles O47: of the host's accesses only reset and a write to CMD change STATUS. -/
theorem statusStaysLegal : Obligations.StatusStaysLegal := fun _ _ =>
  step_keeps (P := fun s => s.status.ok = true) (hinbox := fun _ _ h => h) (hoperand := fun _ _ _ h => h)
    (hread := fun _ _ h => h) (hstore := fun _ _ _ _ h => h) (hreset := fun _ _ => rfl) (hcmd := onCmdWrite_status_ok)

/-! ### Host memory (R70) -/

theorem onCmdWrite_mem_wf : ∀ v s t, s.mem.wf = true → onCmdWrite v s = .next t → t.mem.wf = true :=
  onCmdWrite_keeps (P := fun s => s.mem.wf = true) (haccept := fun _ h => h) (hfault := fun _ _ _ h => h)
    (hkeySize := fun _ _ _ h => h) (hcreate := fun s _ _ h => by rw [engineFor_state]; exact h)
    (hblocksize := fun _ h => h) (hblock := fun _ _ _ _ c ha h => Memory.wf_writeBlock c h ha)

/-- Settles O48: the two writers of host memory, the host's byte store and a block command, write inside the address
space. -/
theorem memoryStaysCanonical : Obligations.MemoryStaysCanonical := fun _ _ =>
  step_keeps (P := fun s => s.mem.wf = true) (hinbox := fun _ _ h => h) (hoperand := fun _ _ _ h => h)
    (hread := fun _ _ h => h) (hstore := fun _ _ d ha h => Memory.wf_writeBytes d h ha) (hreset := fun _ h => h)
    (hcmd := onCmdWrite_mem_wf)

end Sys2Proof.Machine
end

