-- ==== Sys2Proof/Proofs/Backends.lean ====
section
/-! The two backends compute the same block (spec/42_accelerated_round.md R189 to R197, spec/43_batch_adapter.md R212 to
R214), and the mirrored keys undo a transform (spec/41_generic_round.md R158): what the statements about slots, the
round trip and the unobservable backend (spec/10_state.md R46) rest on. -/

namespace Sys2Proof.Machine

/-! ### Rotations and diffusion (R11, R152) -/

/-- Bit `j` of a word rotated left by `n` is bit `j - n` of the word, counted modulo 32. -/
theorem getLsbD_rotl32 (v : Word) {n j : Nat} (hn : n ≤ 32) (hj : j < 32) :
    (rotl32 v n).getLsbD j = v.getLsbD ((j + (32 - n)) % 32) := by
  rw [rotl32, BitVec.getLsbD_or, BitVec.getLsbD_shiftLeft, BitVec.getLsbD_ushiftRight, Nat.add_comm]
  by_cases h : j < n
  · simp [h, Nat.mod_eq_of_lt (show j + (32 - n) < 32 by omega)]
  · have hout : v.getLsbD (j + (32 - n)) = false := BitVec.getLsbD_of_ge _ _ (by omega)
    simp [h, hj, hout, show (j + (32 - n)) % 32 = j - n by omega]

theorem rotl32_xor (a b : Word) {n : Nat} (hn : n ≤ 32) : rotl32 (a ^^^ b) n = rotl32 a n ^^^ rotl32 b n :=
  BitVec.eq_of_getLsbD_eq fun j hj => by simp only [BitVec.getLsbD_xor, getLsbD_rotl32 _ hn hj]

theorem rotl32_rotl32 (v : Word) {m n : Nat} (h : m + n ≤ 32) : rotl32 (rotl32 v m) n = rotl32 v (m + n) :=
  BitVec.eq_of_getLsbD_eq fun j hj => by
    rw [getLsbD_rotl32 _ (by omega) hj, getLsbD_rotl32 _ (by omega) (Nat.mod_lt _ (by omega)), getLsbD_rotl32 _ h hj]
    congr 1
    omega

theorem rotl32_wordOf_8 (b0 b1 b2 b3 : Byte) : rotl32 (wordOf b0 b1 b2 b3) 8 = wordOf b1 b2 b3 b0 :=
  BitVec.eq_of_getLsbD_eq fun j hj => by
    simp only [getLsbD_rotl32 _ (show 8 ≤ 32 by decide) hj, getLsbD_wordOf]
    by_cases h : j < 8
    · rw [show (j + (32 - 8)) % 32 = j + 24 by omega, if_neg (by omega), if_neg (by omega), if_neg (by omega), if_pos h,
        Nat.add_sub_cancel]
    · simp only [show (j + (32 - 8)) % 32 = j - 8 by omega, show j - 8 < 8 ↔ j < 16 by omega,
        show j - 8 < 16 ↔ j < 24 by omega, show j - 8 < 24 by omega, if_true, if_neg h, Nat.sub_sub]

theorem rotl32_wordOf_16 (b0 b1 b2 b3 : Byte) : rotl32 (wordOf b0 b1 b2 b3) 16 = wordOf b2 b3 b0 b1 := by
  rw [← rotl32_rotl32 (m := 8) (n := 8) _ (by omega), rotl32_wordOf_8, rotl32_wordOf_8]

theorem rotl32_wordOf_24 (b0 b1 b2 b3 : Byte) : rotl32 (wordOf b0 b1 b2 b3) 24 = wordOf b3 b0 b1 b2 := by
  rw [← rotl32_rotl32 (m := 8) (n := 16) _ (by omega), rotl32_wordOf_8, rotl32_wordOf_16]

theorem wordOf_xor (a0 a1 a2 a3 b0 b1 b2 b3 : Byte) : wordOf (a0 ^^^ b0) (a1 ^^^ b1) (a2 ^^^ b2) (a3 ^^^ b3) =
    wordOf a0 a1 a2 a3 ^^^ wordOf b0 b1 b2 b3 :=
  BitVec.eq_of_getLsbD_eq fun j _ => by
    simp only [BitVec.getLsbD_xor, getLsbD_wordOf]
    split_ifs <;> rfl

/-- R191: L with the rotations by 10 and 18 taken as a rotation by 2 of those by 8 and 16. -/
theorem diffuse_eq_nested (b : Word) :
    diffuse b = b ^^^ rotl32 b 24 ^^^ rotl32 (b ^^^ rotl32 b 8 ^^^ rotl32 b 16) 2 := by
  rw [rotl32_xor _ _ (by omega), rotl32_xor _ _ (by omega), rotl32_rotl32 _ (by omega), rotl32_rotl32 _ (by omega)]
  simp only [diffuse, BitVec.xor_assoc, BitVec.xor_comm (rotl32 b 24)]

/-! ### Lanes (R190) -/

theorem lane_vxor (u v : V128) (b : Fin 4) : lane (vxor u v) b = lane u b ^^^ lane v b := by
  simp only [lane, getElem_vxor, wordOf_xor]

theorem lane_ofLanes (w : Words4) (b : Fin 4) : lane (ofLanes w) b = w.get b := by
  have h : ∀ k < 4, (4 * b.val + k) / 4 = b.val ∧ (4 * b.val + k) % 4 = k := by omega
  have h0 : 4 * b.val / 4 = b.val ∧ 4 * b.val % 4 = 0 := by omega
  simp [lane, h, h0, laneByte_eq_byteOf, wordOf_byteOf]

theorem lane_bcast (w : Word) (b : Fin 4) : lane (bcast w) b = w := by
  rw [bcast, lane_ofLanes]
  fin_cases b <;> rfl

/-! ### The vector diffusion (R191) -/

theorem lowNibble_eq (x : Byte) : lowNibble x = x.toNat % 16 := by simp [lowNibble]

/-- A shuffle moves byte `k` to position `i` when its mask holds `k` there. -/
theorem getElem_pshufb_of_toNat {t m : V128} {i k : Nat} (hi : i < 16) (hk : k < 16) (h : m[i].toNat = k) :
    (pshufb t m)[i] = t[k] := by
  have hmsb : m[i].msb = false := by rw [BitVec.msb_eq_false_iff_two_mul_lt]; omega
  rw [getElem_pshufb]
  simp [hmsb, lowNibble_eq, h, Nat.mod_eq_of_lt hk]

/-- The mask `m` moves the bytes of every lane up by `c` places, the last ones to the front (R191). -/
def RotatesLanes (m : V128) (c : Nat) : Prop := ∀ i : Fin 16, m[i].toNat = 4 * (i.val / 4) + (i.val + (4 - c)) % 4

theorem lane_pshufb {m : V128} {c : Nat} (hm : RotatesLanes m c) (v : V128) (b : Fin 4) :
    lane (pshufb v m) b = wordOf (v[4 * b.val + (3 + (4 - c)) % 4]) (v[4 * b.val + (2 + (4 - c)) % 4])
      (v[4 * b.val + (1 + (4 - c)) % 4]) (v[4 * b.val + (4 - c) % 4]) := by
  have h : ∀ (k : Nat) (hk : k < 4), (pshufb v m)[4 * b.val + k] = v[4 * b.val + (k + (4 - c)) % 4] := fun k hk =>
    getElem_pshufb_of_toNat _ _ ((hm ⟨4 * b.val + k, by omega⟩).trans (by simp only; omega))
  have h0 := h 0 (by omega)
  simp only [Nat.add_zero, Nat.zero_add] at h0
  rw [lane, h 3 (by omega), h 2 (by omega), h 1 (by omega), h0]

theorem lane_pshufb_ROT8 (v : V128) (b : Fin 4) : lane (pshufb v maskROT8) b = rotl32 (lane v b) 8 := by
  rw [lane_pshufb (c := 1) (by unfold RotatesLanes; decide), lane, rotl32_wordOf_8]
  rfl

theorem lane_pshufb_ROT16 (v : V128) (b : Fin 4) : lane (pshufb v maskROT16) b = rotl32 (lane v b) 16 := by
  rw [lane_pshufb (c := 2) (by unfold RotatesLanes; decide), lane, rotl32_wordOf_16]
  rfl

theorem lane_pshufb_ROT24 (v : V128) (b : Fin 4) : lane (pshufb v maskROT24) b = rotl32 (lane v b) 24 := by
  rw [lane_pshufb (c := 3) (by unfold RotatesLanes; decide), lane, rotl32_wordOf_24]
  rfl

theorem lane_vrotl2 (v : V128) (b : Fin 4) : lane (vrotl2 v) b = rotl32 (lane v b) 2 := by
  rw [vrotl2, lane_ofLanes]
  fin_cases b <;> rfl

/-- R191: the vector diffusion is L in every lane. -/
theorem lane_lvec (v : V128) (b : Fin 4) : lane (lvec v) b = diffuse (lane v b) := by
  simp only [lvec, lane_vxor, lane_vrotl2, lane_pshufb_ROT8, lane_pshufb_ROT16, lane_pshufb_ROT24, diffuse_eq_nested]

/-! ### The vector substitution (R189) -/

/-- The bits of a half as those of eight appended bytes, at the width the laws of append need. -/
theorem getLsbD_vhalf (a : V128) (h : Fin 2) (j : Nat) : (vhalf a h).getLsbD j =
    (a[8 * h.val + 7] ++ a[8 * h.val + 6] ++ a[8 * h.val + 5] ++ a[8 * h.val + 4] ++ a[8 * h.val + 3] ++ a[8 * h.val + 2]
      ++ a[8 * h.val + 1] ++ a[8 * h.val] : BitVec (8 + 8 + 8 + 8 + 8 + 8 + 8 + 8)).getLsbD j := rfl

/-- Byte `k` of the 8-byte half `h` of a vector. -/
theorem extractLsb'_vhalf (a : V128) (h : Fin 2) {k : Nat} (hk : k < 8) :
    (vhalf a h).extractLsb' (8 * k) 8 = a[8 * h.val + k] := by
  apply BitVec.eq_of_getLsbD_eq
  intro j hj
  rw [BitVec.getLsbD_extractLsb', getLsbD_vhalf]
  simp only [BitVec.getLsbD_append]
  have above : ∀ c d, d ≤ c → ¬c + j < d := by omega
  interval_cases k <;> simp [hj, above, Nat.sub_add_comm]

/-- The low nibble of a byte of a word shifted right by 4 is the high nibble of the byte. -/
theorem lowNibble_extractLsb'_shift (w : U64) (k : Nat) :
    lowNibble ((w >>> 4).extractLsb' (8 * k) 8) = highNibble (w.extractLsb' (8 * k) 8) := by
  rw [lowNibble, highNibble]
  congr 1
  apply BitVec.eq_of_getLsbD_eq
  intro j hj
  simp [hj, show j < 8 by omega, show 4 + j < 8 by omega, Nat.add_left_comm]

/-- Shifting the halves right by 4 brings the high nibble of every byte into its low one (R189). -/
theorem lowNibble_srl64x4 (x : V128) {i : Nat} (hi : i < 16) : lowNibble (srl64x4 x)[i] = highNibble x[i] := by
  have hk : i % 8 < 8 := Nat.mod_lt _ (by decide)
  simp only [srl64x4, getElem_tabulate, lowNibble_extractLsb'_shift]
  split_ifs with h
  · rw [extractLsb'_vhalf x 0 hk]
    congr 2
    simp only [Fin.val_zero]
    omega
  · rw [extractLsb'_vhalf x 1 hk]
    congr 2
    simp only [Fin.val_one]
    omega

theorem toNat_and_0F (x : Byte) : (x &&& 0x0F#8).toNat = lowNibble x := by
  rw [lowNibble_eq, BitVec.toNat_and]
  exact Nat.and_two_pow_sub_one_eq_mod x.toNat 4

/-- A table lookup by the low nibble of every byte. -/
theorem getElem_pshufb_and (t x : V128) {i : Nat} (hi : i < 16) :
    (pshufb t (vand x maskNM))[i] = t[lowNibble x[i]]'(lowNibble_lt _) :=
  getElem_pshufb_of_toNat hi (lowNibble_lt _) (by rw [getElem_vand, getElem_maskNM, toNat_and_0F])

/-- A table lookup by the high nibble of every byte. -/
theorem getElem_pshufb_srl64x4 (t x : V128) {i : Nat} (hi : i < 16) :
    (pshufb t (vand (srl64x4 x) maskNM))[i] = t[highNibble x[i]]'(highNibble_lt _) := by
  simp only [getElem_pshufb_and t _ hi, lowNibble_srl64x4 x hi]

/-- R188: ShiftRows puts back the bytes that the inverse permutation moved. -/
theorem getElem_shiftRows_subBytes_ISR (y : V128) {i : Nat} (hi : i < 16) :
    (shiftRows (subBytes (pshufb y shiftRowsISR)))[i] = aesSbox y[i] := by
  have h := shiftRows_permutation.1 ⟨i, hi⟩
  simp only [← lowNibble_eq] at h
  simp only [shiftRows, getElem_tabulate, getElem_subBytes]
  rw [getElem_pshufb_of_toNat _ hi h]

theorem lowNibble_not_xor_0F (s : Byte) : lowNibble (~~~(s ^^^ 0x0F#8)) = lowNibble s := by
  revert s; decide

theorem highNibble_xor_0F (s : Byte) : highNibble (s ^^^ 0x0F#8) = highNibble s := by
  revert s; decide

/-- R182: the first pair of lookups, byte by byte. -/
theorem getElem_lookupIn (x : V128) {i : Nat} (hi : i < 16) :
    (vxor (pshufb tableM1L (vand x maskNM)) (pshufb tableM1H (vand (srl64x4 x) maskNM)))[i] =
      tableM1L[lowNibble x[i]]'(lowNibble_lt _) ^^^ tableM1H[highNibble x[i]]'(highNibble_lt _) := by
  rw [getElem_vxor, getElem_pshufb_and _ _ hi, getElem_pshufb_srl64x4 _ _ hi]

/-- R183: the second pair of lookups. The mask NM added as a round key complements the low nibbles, and `andn`
complements them back. -/
theorem getElem_lookupOut (y z : V128) {i : Nat} (hi : i < 16) (hz : z[i] = aesSbox y[i] ^^^ 0x0F#8) :
    (vxor (pshufb tableM2L (vandn z maskNM)) (pshufb tableM2H (vand (srl64x4 z) maskNM)))[i] =
      tableM2L[lowNibble (aesSbox y[i])]'(lowNibble_lt _) ^^^ tableM2H[highNibble (aesSbox y[i])]'(highNibble_lt _) := by
  have hlow : (vandn z maskNM)[i].toNat = lowNibble (aesSbox y[i]) := by
    rw [getElem_vandn, getElem_maskNM, toNat_and_0F, hz, lowNibble_not_xor_0F]
  rw [getElem_vxor, getElem_pshufb_of_toNat hi (lowNibble_lt _) hlow, getElem_pshufb_srl64x4 _ _ hi]
  simp only [hz, highNibble_xor_0F]

/-- R189: the vector substitution is SBOX_A on every byte. -/
theorem getElem_sbox16 (x : V128) {i : Nat} (hi : i < 16) : (sbox16 x)[i] = sboxA x[i] := by
  rw [sbox16, getElem_lookupOut (vxor (pshufb tableM1L (vand x maskNM)) (pshufb tableM1H (vand (srl64x4 x) maskNM))) _ hi]
  · simp only [getElem_lookupIn x hi, sboxA]
  · rw [aesenclast, getElem_vxor, getElem_shiftRows_subBytes_ISR _ hi, getElem_maskNM]

/-- R185, R189: the vector substitution is tau in every lane. -/
theorem lane_sbox16 (x : V128) (b : Fin 4) : lane (sbox16 x) b = tau (lane x b) := by
  simp [lane, tau, getElem_sbox16, sboxA_eq_sbox]

/-! ### The four-block transform (R192, R193, R197) -/

/-- Lane `b` of the four state vectors: the state of block `b` (R190). -/
def Vectors4.lane (v : Vectors4) (b : Fin 4) : Words4 where
  x0 := Machine.lane v.v0 b
  x1 := Machine.lane v.v1 b
  x2 := Machine.lane v.v2 b
  x3 := Machine.lane v.v3 b

/-- R192: the four-lane round is the generic round in every lane. -/
theorem lane_round4 (v : Vectors4) (rk : Word) (b : Fin 4) : (round4 v rk).lane b = roundF (v.lane b) rk := by
  simp only [Vectors4.lane, round4, roundF, roundT, lane_vxor, lane_lvec, lane_sbox16, lane_bcast]

/-- R193: so are the rounds of a list of keys. -/
theorem lane_foldl_round4 (keys : List Word) (v : Vectors4) (b : Fin 4) :
    (keys.foldl round4 v).lane b = rounds keys (v.lane b) := by
  induction keys generalizing v with
  | nil => rfl
  | cons rk keys ih => rw [List.foldl_cons, ih, lane_round4]; rfl

theorem lane_loadVectors (src : Buffer) (b : Fin 4) : (loadVectors src).lane b = wordsOf (laneBlock src b) := by
  have h : ∀ j, lane (loadVector src j) b = (wordsOf (laneBlock src b)).get j := fun j => by
    rw [loadVector, lane_ofLanes]
    fin_cases b <;> rfl
  simp only [Vectors4.lane, loadVectors, h]
  rfl

theorem laneBlock_bufferOf (b0 b1 b2 b3 : Block) (b : Fin 4) :
    laneBlock (bufferOf b0 b1 b2 b3) b = #v[b0, b1, b2, b3][b] := by
  refine Vector.ext fun i hi => ?_
  have hb : (16 * b.val + i) / 16 = b.val := by omega
  have hi' : (16 * b.val + i) % 16 = i := by omega
  simp only [getElem_laneBlock, bufferOf, getElem_tabulate, hb, hi']
  rfl

/-- R197: every lane of the four-block transform is EncryptBlock of that lane. -/
theorem laneBlock_fourBlocks (keys : RoundKeys) (src : Buffer) (b : Fin 4) :
    laneBlock (fourBlocks keys src) b = encryptBlock keys (laneBlock src b) := by
  rw [encryptBlock, ← lane_loadVectors, ← lane_foldl_round4, fourBlocks, laneBlock_bufferOf]
  fin_cases b <;> rfl

/-! ### The single-block paths (R212, R214, R228) -/

theorem unpack1_eq_laneBlock (buf : Buffer) : unpack1 buf = laneBlock buf 0 :=
  Vector.ext fun i hi => by simp

/-- R210, R211: the block is in lane 0 of its own padding. -/
theorem laneBlock_pack1 (p : Block) : laneBlock (pack1 p) 0 = p :=
  Vector.ext fun i hi => by simp [hi]

/-- R214: the accelerated path of one block gives EncryptBlock's value. -/
theorem unpack1_fourBlocks_pack1 (keys : RoundKeys) (p : Block) :
    unpack1 (fourBlocks keys (pack1 p)) = encryptBlock keys p := by
  rw [unpack1_eq_laneBlock, laneBlock_fourBlocks, laneBlock_pack1]

/-- Settles O41: `accelSingle` is lane 0 of the four-block transform, which is EncryptBlock of the packed block. -/
theorem singleBlockPathsAgree : Obligations.SingleBlockPathsAgree := by
  intro d keys p s hcap
  rw [accelSingle_eq, if_pos hcap, unpack1_fourBlocks_pack1]
  exact ⟨_, rfl, rfl⟩

/-- R228, R230: whichever engine the slot is bound to, the transform gives EncryptBlock's value. -/
theorem transformBlock_value {d : Direction} {tag : Tag} {keys : RoundKeys} {p c : Block} {s t : State}
    (h : transformBlock d tag keys p s = some (c, t)) : c = encryptBlock keys p := by
  cases tag with
  | generic => cases d <;> (injection h with h; exact (congrArg Prod.fst h).symm)
  | accel =>
    simp only [transformBlock, accelSingle_eq, unpack1_fourBlocks_pack1] at h
    split at h
    · injection h with h
      exact (congrArg Prod.fst h).symm
    · contradiction

/-- R226 to R228: a block command that passes its checks writes the transform of the source block with the slot's keys,
gives RESULT = 0 and uses WR. -/
theorem runBlockCommand_of_noFault {d : Direction} {n : Nat} {s : State} (v : U64) (h : blockCommandFault n s = none) :
    ∃ w k, runBlockCommand d n v s = .next ((({ s with wr := w, draws := k } : State).storeBlock (s.operandNat .dstAddr)
      (encryptBlock ((s.slot n).keys d) (s.mem.readBlock (s.operandNat .srcAddr)))).setResult 0) := by
  rcases runBlockCommand_cases d n v s with ⟨c, hc, -⟩ | ⟨-, c, u, htransform, hu, hrun⟩
  · simp [h] at hc
  · exact ⟨u.wr, u.draws, by rw [hrun, ← hu, transformBlock_value htransform]⟩

/-! ### Decryption (R157, R158) -/

/-- The words of a state in the opposite order, as R155 writes them out. -/
def Words4.reverse (x : Words4) : Words4 := ⟨x.x3, x.x2, x.x1, x.x0⟩

/-- A round on the reversed state undoes the round with the same key. -/
theorem roundF_reverse_roundF (x : Words4) (rk : Word) : roundF (roundF x rk).reverse rk = x.reverse := by
  have hsum : x.x3 ^^^ x.x2 ^^^ x.x1 = x.x1 ^^^ x.x2 ^^^ x.x3 := by
    rw [BitVec.xor_comm, ← BitVec.xor_assoc, BitVec.xor_comm x.x1, BitVec.xor_assoc, BitVec.xor_comm]
  simp only [roundF, Words4.reverse, hsum, BitVec.xor_assoc, BitVec.xor_self, BitVec.xor_zero]

/-- The rounds with the keys in the opposite order undo the rounds, up to the order of the words. -/
theorem rounds_reverse_rounds (keys : List Word) (x : Words4) :
    rounds keys.reverse (rounds keys x).reverse = x.reverse := by
  induction keys generalizing x with
  | nil => rfl
  | cons rk keys ih =>
    have hcons : rounds (rk :: keys) x = rounds keys (roundF x rk) := rfl
    have happend : ∀ y, rounds (rk :: keys).reverse y = roundF (rounds keys.reverse y) rk := fun y => by
      rw [List.reverse_cons, rounds, List.foldl_append]; rfl
    rw [hcons, happend, ih]
    exact roundF_reverse_roundF x rk

/-- R137: mirrored keys are the keys in the opposite order. -/
theorem toList_eq_reverse_of_mirrored {enc dec : RoundKeys} (h : ∀ i : Fin 32, dec[i.val] = enc[31 - i.val]) :
    dec.toList = enc.toList.reverse := by
  refine List.ext_getElem (by simp) fun i hi _ => ?_
  have hi : i < 32 := by simpa using hi
  simpa using h ⟨i, hi⟩

/-- R158: decrypting with mirrored keys gives back the block. -/
theorem decryptBlock_encryptBlock {enc dec : RoundKeys} (h : ∀ i : Fin 32, dec[i.val] = enc[31 - i.val]) (p : Block) :
    decryptBlock dec (encryptBlock enc p) = p := by
  have hwords : wordsOf (encryptBlock enc p) = (rounds enc.toList (wordsOf p)).reverse := wordsOf_blockOf ..
  rw [decryptBlock, encryptBlock, hwords, toList_eq_reverse_of_mirrored h, rounds_reverse_rounds]
  exact blockOf_wordsOf p

end Sys2Proof.Machine
end

