-- ==== Sys2Proof/Proofs/Unobservable.lean ====
section
/-! The backend is unobservable (spec/10_state.md R46, spec/44_dispatch_facade.md R230, R231, R291): the machine and the
machine with its backend erased, which is a Generic one, take the same steps up to erasure. -/

namespace Sys2Proof.Machine

/-! ### What erasing the backend leaves -/

@[simp] theorem State.eraseBackend_nslots (s : State) : s.eraseBackend.nslots = s.nslots := List.length_map ..

theorem Slot.eraseBackend_of_not_valid {sl : Slot} (h : sl.valid = false) : sl.eraseBackend = Slot.reset := by
  simp [Slot.eraseBackend, h]

theorem Slot.eraseBackend_of_valid {sl : Slot} (h : sl.valid = true) : sl.eraseBackend = { sl with tag := .generic } := by
  simp [Slot.eraseBackend, h]

theorem Slot.eraseBackend_valid (sl : Slot) : sl.eraseBackend.valid = sl.valid := by
  cases h : sl.valid <;> simp [Slot.eraseBackend, h, Slot.reset]

theorem Slot.eraseBackend_tag (sl : Slot) : sl.eraseBackend.tag = .generic := by
  cases h : sl.valid <;> simp [Slot.eraseBackend, h, Slot.reset]

theorem Slot.eraseBackend_keys {sl : Slot} (h : sl.valid = true) (d : Direction) : sl.eraseBackend.keys d = sl.keys d := by
  rw [Slot.eraseBackend_of_valid h]
  cases d <;> rfl

@[simp] theorem Slot.eraseBackend_eraseBackend (sl : Slot) : sl.eraseBackend.eraseBackend = sl.eraseBackend := by
  cases h : sl.valid
  · rw [Slot.eraseBackend_of_not_valid h]; rfl
  · simp [Slot.eraseBackend, h]

theorem State.slot_eraseBackend (s : State) (n : Nat) : s.eraseBackend.slot n = (s.slot n).eraseBackend := by
  simp only [State.slot, State.eraseBackend, List.getD_eq_getElem?_getD, List.getElem?_map]
  cases s.slots[n]? <;> rfl

@[simp] theorem State.eraseBackend_eraseBackend (s : State) : s.eraseBackend.eraseBackend = s.eraseBackend := by
  cases h : s.engineSel <;> simp [State.eraseBackend, h]

/-! ### Operations that neither read nor write the backend -/

@[simp] theorem State.eraseBackend_accept (s : State) : s.accept.eraseBackend = s.eraseBackend.accept := rfl

@[simp] theorem State.eraseBackend_setResult (s : State) (v : U64) :
    (s.setResult v).eraseBackend = s.eraseBackend.setResult v := rfl

@[simp] theorem State.eraseBackend_raiseFault (s : State) (c : FaultCause) (v : U64) :
    (s.raiseFault c v).eraseBackend = s.eraseBackend.raiseFault c v := rfl

@[simp] theorem State.eraseBackend_completeError (s : State) (c : ErrorCause) (v : U64) :
    (s.completeError c v).eraseBackend = s.eraseBackend.completeError c v := rfl

@[simp] theorem State.eraseBackend_writeOperand (s : State) (r : OpReg) (v : U64) :
    (s.writeOperand r v).eraseBackend = s.eraseBackend.writeOperand r v := rfl

@[simp] theorem State.eraseBackend_logRead (s : State) (x : HostRead) :
    (s.logRead x).eraseBackend = s.eraseBackend.logRead x := rfl

@[simp] theorem State.eraseBackend_storeBlock (s : State) (a : Nat) (b : Block) :
    (s.storeBlock a b).eraseBackend = s.eraseBackend.storeBlock a b := rfl

@[simp] theorem State.eraseBackend_useWr (s : State) (w : Buffer) (k : Nat) :
    ({ s with wr := w, draws := k } : State).eraseBackend = s.eraseBackend := rfl

/-! ### Operations on the slots and the dispatcher -/

theorem State.eraseBackend_setSlot (s : State) (n : Nat) (v : Slot) :
    (s.setSlot n v).eraseBackend = s.eraseBackend.setSlot n v.eraseBackend :=
  congrArg (fun slots => { s.eraseBackend with slots := slots }) List.map_set

/-- A slot whose VALID is cleared is erased to an empty one. -/
theorem State.eraseBackend_invalidate (s : State) (n : Nat) :
    (s.invalidate n).eraseBackend = s.eraseBackend.setSlot n Slot.reset :=
  s.eraseBackend_setSlot n _

/-- Either both machines take the dispatch decision, or both have taken one before. -/
theorem State.eraseBackend_engineFor (s : State) :
    (engineFor s.eraseBackend).2.eraseBackend = (engineFor s).2.eraseBackend := by
  cases h : s.engineSel <;> simp [engineFor, State.eraseBackend, h, EngineSel.ofTag_ne_unset]

theorem State.eraseBackend_resetEvent (s : State) :
    s.eraseBackend.resetEvent.eraseBackend = s.resetEvent.eraseBackend := by
  simp [State.resetEvent, State.eraseBackend, State.resetOn, State.nslots]

/-! ### The commands -/

theorem newcipherOperandFault_eraseBackend (n : Nat) (s : State) :
    newcipherOperandFault n s.eraseBackend = newcipherOperandFault n s := by
  rw [newcipherOperandFault, State.eraseBackend_nslots]
  rfl

theorem execNewcipher_eraseBackend (n : Nat) (s : State) :
    eraseOutcome (execNewcipher n s.eraseBackend) = eraseOutcome (execNewcipher n s) := by
  have hops := newcipherOperandFault_eraseBackend n s
  cases h : newcipherOperandFault n s with
  | some c => simp [execNewcipher_of_operandFault h, execNewcipher_of_operandFault (hops.trans h), eraseOutcome]
  | none =>
    by_cases hk : s.operandNat .keyLen = 16
    · cases hb : keyBufferFault s with
      | some c =>
        rw [execNewcipher_of_bufferFault h hk hb, execNewcipher_of_bufferFault (hops.trans h) hk hb]
        simp [eraseOutcome]
      | none =>
        rw [execNewcipher_of_noFault h hk hb, execNewcipher_of_noFault (hops.trans h) hk hb]
        simp only [eraseOutcome, State.eraseBackend_setResult, State.eraseBackend_setSlot, State.eraseBackend_engineFor]
        rfl
    · rw [execNewcipher_of_keySize h hk, execNewcipher_of_keySize (hops.trans h) hk]
      simp only [eraseOutcome, State.eraseBackend_completeError, State.eraseBackend_invalidate,
        State.eraseBackend_eraseBackend]
      rfl

/-- Under the dispatch invariant no valid slot fails the check of R196, so the checks do not depend on the backend. -/
theorem blockCommandFault_eraseBackend {s : State} (hs : s.dispatchInv = true) (n : Nat) :
    blockCommandFault n s.eraseBackend = blockCommandFault n s := by
  have hbound := Slot.boundTo_iff.mp (State.slot_all (State.dispatchInv_iff.mp hs).2 rfl n)
  have haccel : (s.slot n).valid = true → (decide ((s.slot n).tag = .accel) && !s.platform.capAes) = false := by
    intro hv
    rw [(hbound hv).1]
    cases s.platform.capAes <;> rfl
  simp only [blockCommandFault, State.eraseBackend_nslots, State.slot_eraseBackend, Slot.eraseBackend_valid,
    Slot.eraseBackend_tag]
  cases hv : (s.slot n).valid
  · rfl
  · rw [haccel hv]
    rfl

/-- R230: whichever engine transforms the block, the same block is written. -/
theorem runBlockCommand_eraseBackend {s : State} (hs : s.dispatchInv = true) (d : Direction) (n : Nat) (v : U64) :
    eraseOutcome (runBlockCommand d n v s.eraseBackend) = eraseOutcome (runBlockCommand d n v s) := by
  have hchecks := blockCommandFault_eraseBackend hs n
  cases h : blockCommandFault n s with
  | some c =>
    rw [runBlockCommand_of_fault h, runBlockCommand_of_fault (hchecks.trans h)]
    simp [eraseOutcome]
  | none =>
    obtain ⟨w, k, hrun⟩ := runBlockCommand_of_noFault (d := d) v h
    obtain ⟨w', k', hrun'⟩ := runBlockCommand_of_noFault (d := d) v (hchecks.trans h)
    rw [hrun, hrun', State.slot_eraseBackend, Slot.eraseBackend_keys (valid_of_noFault h)]
    simp only [eraseOutcome, State.eraseBackend_setResult, State.eraseBackend_storeBlock, State.eraseBackend_useWr,
      State.eraseBackend_eraseBackend]
    rfl

theorem exec_eraseBackend {s : State} (hs : s.dispatchInv = true) (i : Instr) :
    eraseOutcome (exec i s.eraseBackend) = eraseOutcome (exec i s) := by
  cases i with
  | newcipher n => exact execNewcipher_eraseBackend n s
  | blocksize => simp [exec, execBlocksize, eraseOutcome]
  | encrypt n => exact runBlockCommand_eraseBackend hs ..
  | decrypt n => exact runBlockCommand_eraseBackend hs ..

/-! ### A step -/

theorem onCmdWrite_eraseBackend {s : State} (hs : s.dispatchInv = true) (v : U64) :
    eraseOutcome (onCmdWrite v s.eraseBackend) = eraseOutcome (onCmdWrite v s) := by
  have hfault : s.eraseBackend.status = s.status := rfl
  simp only [onCmdWrite, hfault]
  split
  · simp [eraseOutcome]
  · cases decode v with
    | error e => simp [eraseOutcome]
    | ok i => exact exec_eraseBackend (s := s.accept) hs i

theorem writeRegister_eraseBackend {s : State} (hs : s.dispatchInv = true) (r : HostReg) (v : U64) :
    eraseOutcome (writeRegister r v s.eraseBackend) = eraseOutcome (writeRegister r v s) := by
  cases r with
  | cmd => exact onCmdWrite_eraseBackend hs v
  | operand o => simp [writeRegister, eraseOutcome]
  | status | result | faultCmd | reserved => simp [writeRegister, eraseOutcome]

/-- R291: no interaction of the host tells the machine from the one with its backend erased. -/
theorem takeAccess_eraseBackend {s : State} (hs : s.dispatchInv = true) (x : HostAccess) :
    eraseOutcome (takeAccess x s.eraseBackend) = eraseOutcome (takeAccess x s) := by
  have hreg : ∀ addr bytes, regOfAccess s.eraseBackend.platform addr bytes = regOfAccess s.platform addr bytes :=
    fun _ _ => rfl
  cases x with
  | writeReg addr bytes v =>
    simp only [takeAccess, hreg]
    cases regOfAccess s.platform addr bytes with
    | none => rfl
    | some r => exact writeRegister_eraseBackend hs r v
  | readReg addr bytes =>
    have hvalue : ∀ r, registerValue r s.eraseBackend = registerValue r s := fun r => by cases r <;> rfl
    simp only [takeAccess, hreg]
    cases regOfAccess s.platform addr bytes with
    | none => rfl
    | some r =>
      simp only [hvalue]
      cases registerValue r s <;> simp [eraseOutcome]
  | storeBytes addr data =>
    have hmeets : meetsRegisterBlock s.eraseBackend.platform addr.toNat data.length =
        meetsRegisterBlock s.platform addr.toNat data.length := rfl
    simp only [takeAccess, storeHostBytes, hmeets]
    split
    · rfl
    · split
      · rfl
      · exact congrArg (fun u : State => Host.Outcome.next { u with mem := s.mem.writeBytes addr.toNat data })
          s.eraseBackend_eraseBackend
  | loadBytes addr k =>
    have hmeets : meetsRegisterBlock s.eraseBackend.platform addr.toNat k =
        meetsRegisterBlock s.platform addr.toNat k := rfl
    simp only [takeAccess, loadHostBytes, hmeets]
    split
    · rfl
    · split
      · rfl
      · exact congrArg (fun u : State => Host.Outcome.next (u.logRead (.bytes (s.mem.readBytes addr.toNat k))))
          s.eraseBackend_eraseBackend
  | rst => exact congrArg Host.Outcome.next s.eraseBackend_resetEvent

theorem step_eraseBackend {s : State} (hs : s.dispatchInv = true) :
    eraseOutcome (step s.eraseBackend) = eraseOutcome (step s) := by
  have hinbox : s.eraseBackend.inbox = s.inbox := rfl
  simp only [step, takeNext, hinbox]
  cases s.inbox with
  | nil => simp [eraseOutcome]
  | cons x rest => exact takeAccess_eraseBackend (s := { s with inbox := rest }) hs x

/-- Settles O60: both states take the steps of the one machine they are erased to, and an observation shows nothing that
is erased. -/
theorem backendIsUnobservable : Obligations.BackendIsUnobservable := by
  intro s t hs ht h
  have hobs : ∀ u : State, u.eraseBackend.observe = u.observe := fun _ => rfl
  exact ⟨by rw [← hobs s, h, hobs], by rw [← step_eraseBackend hs, h, step_eraseBackend ht]⟩

end Sys2Proof.Machine
end

