-- ==== Sys2Proof/Proofs/RegisterBlock.lean ====
section
/-! The register block (spec/10_state.md R30 to R37) and its values after reset (R49): what host writes and reads of each
register do, and which accesses are refused. -/

namespace Sys2Proof.Machine

/-! ### Operand registers (R30, R32) -/

@[simp] theorem State.operand_writeOperand_same (s : State) (r : OpReg) (v : U64) :
    (s.writeOperand r v).operand r = v := by
  simp [State.operand]

@[simp] theorem State.written_writeOperand_same (s : State) (r : OpReg) (v : U64) :
    (s.writeOperand r v).written r = true := by
  simp [State.written]

theorem State.operand_writeOperand_ne (s : State) {r q : OpReg} (v : U64) (h : q ≠ r) :
    (s.writeOperand r v).operand q = s.operand q := by
  simp [State.operand, Operands.get_set_ne _ _ h]

theorem State.written_writeOperand_ne (s : State) {r q : OpReg} (v : U64) (h : q ≠ r) :
    (s.writeOperand r v).written q = s.written q := by
  simp [State.written, Operands.get_set_ne _ _ h]

/-! ### Steps that take an access of a register (R31, R37) -/

section
variable {s : State} {addr : U64} {off : Nat} {rest : List HostAccess} {r : HostReg}

/-- A host write at the offset of a register writes that register. -/
theorem step_writeReg {v : U64} (ha : addr.toNat = s.platform.mmioBase.toNat + off) (hr : regAt off = some r)
    (hi : s.inbox = .writeReg addr 8 v :: rest) : step s = writeRegister r v { s with inbox := rest } := by
  simp [step, takeNext, hi, takeAccess, regOfAccess_eq ha, hr]

/-- A host read at the offset of a register that has a value receives it. -/
theorem step_readReg {x : U64} (ha : addr.toNat = s.platform.mmioBase.toNat + off) (hr : regAt off = some r)
    (hi : s.inbox = .readReg addr 8 :: rest) (hx : registerValue r { s with inbox := rest } = some x) :
    step s = .next { s with inbox := rest, reads := s.reads ++ [.reg x] } := by
  simp [step, takeNext, hi, takeAccess, regOfAccess_eq ha, hr, hx, State.logRead]

/-- A host read at the offset of a register that has no value is refused. -/
theorem step_readReg_refused (ha : addr.toNat = s.platform.mmioBase.toNat + off) (hr : regAt off = some r)
    (hi : s.inbox = .readReg addr 8 :: rest) (hx : registerValue r { s with inbox := rest } = none) :
    step s = .refused .unwrittenOperandRead := by
  simp [step, takeNext, hi, takeAccess, regOfAccess_eq ha, hr, hx]

end

/-- R32: an operand register has a value for the host when its WRITTEN flag is set. -/
theorem registerValue_operand (s : State) (r : OpReg) :
    registerValue (.operand r) s = if s.written r then some (s.operand r) else none := rfl

/-- Settles O10: the write is `writeOperand`, which touches no register but its own. -/
theorem operandWriteTakesEffect : Obligations.OperandWriteTakesEffect := by
  intro s r addr v rest ha hi
  refine ⟨({ s with inbox := rest } : State).writeOperand r v, ?step, ?value, ?written, fun q hq => ?other, rfl⟩
  case step => exact step_writeReg ha (regAt_offset r) hi
  case value => exact State.operand_writeOperand_same ..
  case written => exact State.written_writeOperand_same ..
  case other => exact ⟨State.operand_writeOperand_ne _ v hq, State.written_writeOperand_ne _ v hq⟩

/-- Settles O11: the offset says which register is read, and the register what value it has. -/
theorem registerReadsGiveTheirValues : Obligations.RegisterReadsGiveTheirValues := by
  intro s addr off rest ha hi got
  refine ⟨?cmd, ?status, ?result, ?faultCmd, ?operand, ?reserved⟩
  case cmd => rintro rfl; exact step_readReg (r := .cmd) ha rfl hi rfl
  case status => rintro rfl; exact step_readReg (r := .status) ha rfl hi rfl
  case result => rintro rfl; exact step_readReg (r := .result) ha rfl hi rfl
  case faultCmd => rintro rfl; exact step_readReg (r := .faultCmd) ha rfl hi rfl
  case operand =>
    rintro r rfl hw
    exact step_readReg ha (regAt_offset r) hi ((registerValue_operand _ r).trans (if_pos hw))
  case reserved =>
    intro h1 h2 h3
    exact step_readReg ha (regAt_reserved h1 h2 h3) hi rfl

/-- Settles O12: a register never written has no value for the host. -/
theorem unwrittenOperandReadRefused : Obligations.UnwrittenOperandReadRefused := fun _ r _ _ ha hi hw =>
  step_readReg_refused ha (regAt_offset r) hi
    ((registerValue_operand _ r).trans (if_neg (ne_true_of_eq_false hw)))

/-- Settles O13: the registers at these offsets take no host write. -/
theorem readOnlyWritesIgnored : Obligations.ReadOnlyWritesIgnored := by
  intro s addr v off rest ha hi hoff
  obtain rfl | rfl | rfl | ⟨h1, h2, h3⟩ := hoff
  · exact step_writeReg (r := .status) ha rfl hi
  · exact step_writeReg (r := .result) ha rfl hi
  · exact step_writeReg (r := .faultCmd) ha rfl hi
  · exact step_writeReg ha (regAt_reserved h1 h2 h3) hi

/-! ### Refused accesses (R37; log entries 3 and 8) -/

theorem regAt_misaligned {off : Nat} (h : off % 8 ≠ 0) : regAt off = none := by
  simp only [regAt, if_pos (Or.inl h)]

/-- R37: a narrow or misaligned access reaches no register. -/
theorem regOfAccess_eq_none {p : Platform} {addr : U64} {bytes : Nat}
    (h : bytes ≠ 8 ∨ (addr.toNat - p.mmioBase.toNat) % 8 ≠ 0) : regOfAccess p addr bytes = none := by
  rw [regOfAccess]
  split_ifs with hnarrow
  · rfl
  · exact regAt_misaligned (h.resolve_left fun hb => hnarrow (.inl hb))

/-- A byte range with a byte in the register block meets the block. -/
theorem meetsRegisterBlock_of_mem {p : Platform} {a n x : Nat} (h1 : a ≤ x) (h2 : x < a + n) (h3 : p.mmioBase.toNat ≤ x)
    (h4 : x < p.mmioBase.toNat + 256) : meetsRegisterBlock p a n = true :=
  meetsRegisterBlock_iff.mpr ⟨by omega, by omega, by omega⟩

/-- Settles O14: such a register access reaches no register, and such a byte access meets the block. -/
theorem otherRegisterAccessesRefused : Obligations.OtherRegisterAccessesRefused := by
  refine fun s rest => ⟨fun addr v bytes _ _ hbad hi => ?register, fun addr data n x hi h1 h2 h3 h4 => ?bytes⟩
  case register =>
    have hnone := regOfAccess_eq_none hbad
    rcases hi with hi | hi <;> simp [step, takeNext, hi, takeAccess, hnone]
  case bytes =>
    have hmeets := meetsRegisterBlock_of_mem h1 h2 h3 h4
    rcases hi with ⟨hi, rfl⟩ | hi
    · simp [step, takeNext, hi, takeAccess, storeHostBytes, hmeets]
    · simp [step, takeNext, hi, takeAccess, loadHostBytes, hmeets]

/-! ### The STATUS word (R34) -/

/-- R34: FAULT in bit 0, ERR in bit 1, CODE from bit 8 on. -/
theorem Status.getLsbD_word (st : Status) {i : Nat} (hi : i < 64) : st.word.getLsbD i =
    if i < 8 then (decide (i = 0) && st.fault || decide (i = 1) && st.err) else st.code.getLsbD (i - 8) := by
  simp only [Status.word, BitVec.getLsbD_or, BitVec.getLsbD_shiftLeft, BitVec.getLsbD_setWidth, BitVec.getLsbD_ofBool]
  split_ifs with h
  · interval_cases i <;> simp
  · simp [hi, h, show ¬i < 1 by omega, show i ≠ 0 by omega, show i - 1 ≠ 0 by omega, show i - 8 < 64 by omega]

theorem Status.word_clear : (⟨false, false, 0⟩ : Status).word = 0 := by decide

/-- A field of a word is what its bits say. -/
theorem extractLsb'_eq_of_getLsbD {w a n : Nat} {x : BitVec w} {y : BitVec n}
    (h : ∀ j < n, x.getLsbD (a + j) = y.getLsbD j) : x.extractLsb' a n = y :=
  BitVec.eq_of_getLsbD_eq fun j hj => by rw [BitVec.getLsbD_extractLsb', decide_eq_true hj, Bool.true_and, h j hj]

/-- Settles O15: every field and every reserved range is read off the word bit by bit. -/
theorem statusWordLayout : Obligations.StatusWordLayout := by
  intro st
  refine ⟨?fault, ?err, extractLsb'_eq_of_getLsbD fun j hj => ?low, extractLsb'_eq_of_getLsbD fun j hj => ?code,
    extractLsb'_eq_of_getLsbD fun j hj => ?high⟩
  all_goals rw [Status.getLsbD_word st (by omega)]
  case fault => simp
  case err => simp
  case low => simp [show 2 + j < 8 by omega, show 2 + j ≠ 1 by omega]
  case code => simp
  case high => simp [BitVec.getLsbD_of_ge st.code (16 + j - 8) (by omega)]; omega

/-! ### The values after reset (R49) -/

theorem resetOn_slot_valid (p : Platform) (n k : Nat) : ((State.resetOn p n).slot k).valid = false := by
  have h := State.slot_all (p := fun sl => !sl.valid) (resetOn_slots_all p n rfl) rfl k
  simpa using h

theorem resetOn_written (p : Platform) (n : Nat) (r : OpReg) : (State.resetOn p n).written r = false :=
  congrArg OperandReg.written (Operands.get_reset r)

/-- Settles O56: `resetOn` gives these values on every platform, and `reset` is it on the model's own. -/
theorem resetValues : Obligations.ResetValues :=
  ⟨fun p n => ⟨Status.word_clear, rfl, rfl, resetOn_written p n, List.length_replicate, resetOn_slot_valid p n, rfl⟩, rfl⟩

end Sys2Proof.Machine
end

