-- ==== Sys2Proof/Proofs/Slots.lean ====
section
/-! The slots, ENGINE_SEL and the operand registers over a step (spec/10_state.md R30, R42, R44), what NEWCIPHER puts into a
slot (R41; spec/44_dispatch_facade.md R221 to R224), and the round trip on a slot (R230). -/

namespace Sys2Proof.Machine

/-! ### Who may write what (R30, R42, R44) -/

theorem onCmdWrite_slot {v : U64} {s t : State} {k : Nat} (h : onCmdWrite v s = .next t)
    (hv : decode v ≠ .ok (.newcipher k)) : t.slot k = s.slot k := by
  rcases onCmdWrite_cases h with ⟨-, rfl⟩ | ⟨-, -, rfl⟩ | ⟨-, i, hi, h⟩
  · rfl
  · rfl
  · exact exec_slot (s := s.accept) h fun hik => hv (hi.trans (congrArg _ hik))

/-- Settles O53: of the accesses a step takes, only reset and a write to CMD touch a slot, and the write only by
NEWCIPHER. -/
theorem instancesAreImmutable : Obligations.InstancesAreImmutable := by
  intro s t k h hne
  rcases step_engine_cases h with ⟨_, _, _, rfl⟩ | hrst | ⟨v, rest, hi, h⟩ | ⟨_, _, _, _, -, -, rfl⟩
  · exact absurd rfl hne
  · exact .inl hrst
  · exact .inr ⟨v, rest, hi, by_contra fun hv => hne (onCmdWrite_slot (s := { s with inbox := rest }) h hv)⟩
  · exact absurd rfl hne

/-- Settles O54: a command leaves the operand registers alone, and a host write changes only the one at its address. -/
theorem onlyTheHostWritesOperands : Obligations.OnlyTheHostWritesOperands := by
  intro s t r h hne
  have changed : t.operands ≠ s.operands := fun heq => by simp [State.operand, State.written, heq] at hne
  rcases step_engine_cases h with ⟨_, _, _, rfl⟩ | hrst | ⟨v, rest, -, h⟩ | ⟨addr, v, q, rest, hi, haddr, rfl⟩
  · exact absurd rfl changed
  · exact .inl hrst
  · exact absurd (onCmdWrite_operands v { s with inbox := rest } t rfl h) changed
  · obtain rfl : r = q := by
      by_contra hrq
      rw [State.operand_writeOperand_ne _ v hrq, State.written_writeOperand_ne _ v hrq] at hne
      exact hne.elim (fun hv => hv rfl) (fun hw => hw rfl)
    exact .inr ⟨addr, v, rest, hi, haddr⟩

/-- ENGINE_SEL is UNSET or the decision of a platform `p`. -/
def State.EngineSelUnsetOrDecided (p : Platform) (s : State) : Prop :=
  s.platform = p ∧ (s.engineSel = .unset ∨ s.engineSel = EngineSel.ofTag (selectEngine p.capAes))

theorem State.engineSelUnsetOrDecided_engineFor {p : Platform} {s : State} (h : s.EngineSelUnsetOrDecided p) :
    (engineFor s).2.EngineSelUnsetOrDecided p := by
  obtain ⟨rfl, hsel⟩ := h
  obtain ⟨htag, hcached, hunset⟩ := engineFor_tag s
  refine ⟨engineFor_platform s, .inr ?_⟩
  by_cases hu : s.engineSel = .unset
  · rw [← htag, hunset hu]
  · rw [hcached hu, hsel.resolve_left hu]

theorem onCmdWrite_engineSelUnsetOrDecided {p : Platform} :
    ∀ v s t, s.EngineSelUnsetOrDecided p → onCmdWrite v s = .next t → t.EngineSelUnsetOrDecided p :=
  onCmdWrite_keeps (haccept := fun _ h => h) (hfault := fun _ _ _ h => h) (hkeySize := fun _ _ _ h => h)
    (hcreate := fun _ _ _ h => State.engineSelUnsetOrDecided_engineFor h)
    (hblocksize := fun _ h => h) (hblock := fun _ _ _ _ _ _ h => h)

/-- Only SelectEngine writes ENGINE_SEL, and only reset clears it. -/
theorem step_engineSelUnsetOrDecided {p : Platform} {s t : State} (hs : s.EngineSelUnsetOrDecided p)
    (h : step s = .next t) : t.EngineSelUnsetOrDecided p :=
  step_keeps (P := State.EngineSelUnsetOrDecided p) (hinbox := fun _ _ h => h) (hoperand := fun _ _ _ h => h)
    (hread := fun _ _ h => h) (hstore := fun _ _ _ _ h => h) (hreset := fun _ h => ⟨h.1, .inl rfl⟩)
    (hcmd := onCmdWrite_engineSelUnsetOrDecided) hs h

/-- A step that takes no reset keeps ENGINE_SEL once it is set. -/
theorem step_engineSel {s t : State} (h : step s = .next t) (hrst : ∀ rest, s.inbox ≠ .rst :: rest)
    (hs : s.engineSel ≠ .unset) : t.engineSel = s.engineSel := by
  rcases step_engine_cases h with ⟨_, _, _, rfl⟩ | ⟨rest, hi⟩ | ⟨v, rest, -, h⟩ | ⟨_, _, _, _, -, -, rfl⟩
  · rfl
  · exact absurd hi (hrst rest)
  · exact onCmdWrite_engineSel hs v { s with inbox := rest } t rfl h
  · rfl

theorem step_rst {s : State} {rest : List HostAccess} (h : s.inbox = .rst :: rest) :
    step s = .next { s with inbox := rest }.resetEvent := by
  rw [step, takeNext, h]
  rfl

/-- Settles O51: the three clauses are the three writers of ENGINE_SEL: none, SelectEngine, reset. -/
theorem engineSelIsWriteOnce : Obligations.EngineSelIsWriteOnce := by
  intro s t h
  refine ⟨step_engineSel h, fun hs => (step_engineSelUnsetOrDecided ⟨rfl, .inl hs⟩ h).2, fun rest hrst => ?_⟩
  rw [step_rst hrst] at h
  injection h with h
  rw [← h]
  rfl

/-! ### NEWCIPHER (R221 to R224) -/

/-- Settles O17: under its conditions NEWCIPHER passes its checks and writes the slot with what Expand and the dispatcher
give. -/
theorem newcipherCreatesTheInstance : Obligations.NewcipherCreatesTheInstance := by
  intro s n ⟨hslot, hka, hkl, hlen, hrange, hadmit⟩
  have hrun := execNewcipher_of_noFault (newcipherOperandFault_eq_none_iff.mpr ⟨hslot, hka, hkl⟩) hlen
    (keyBufferFault_eq_none_iff.mpr ⟨hrange, hadmit⟩)
  have hwritten : ∀ v, (((engineFor s).2.setSlot n v).setResult 0).slot n = v := fun v =>
    State.slot_setSlot_same (engineFor s).2 v (by rwa [engineFor_nslots])
  obtain ⟨htag, hcached, hunset⟩ := engineFor_tag s
  refine ⟨_, hrun, ?valid, ?enc, ?dec, ?decides, hcached, ?bound, rfl, ?status, ?faultCmd⟩
  case valid => rw [hwritten]
  case enc => rw [hwritten]
  case dec => rw [hwritten]
  case decides => exact fun hu => htag.symm.trans (congrArg EngineSel.ofTag (hunset hu))
  case bound => rw [hwritten]; exact htag.symm
  case status => rw [engineFor_state]; rfl
  case faultCmd => rw [engineFor_state]; rfl

/-- Settles O18: the KEY_LEN check comes after the checks of the slot and the operands and before those of the buffer. -/
theorem wrongKeyLengthIsARecoverableError : Obligations.WrongKeyLengthIsARecoverableError := by
  intro s n hslot hka hkl hlen
  refine ⟨_, execNewcipher_of_keySize (newcipherOperandFault_eq_none_iff.mpr ⟨hslot, hka, hkl⟩) hlen, rfl, rfl, ?_,
    fun k hk => State.slot_setSlot_ne s _ hk, rfl, rfl⟩
  exact congrArg Slot.valid (State.slot_setSlot_same s _ hslot)

/-- Settles O27: a fault touches STATUS and FAULT_CMD, the KEY_SIZE error STATUS, RESULT and the slot, success RESULT, the
slot and an UNSET ENGINE_SEL. -/
theorem newcipherAndBlocksizeFrame : Obligations.NewcipherAndBlocksizeFrame := by
  refine ⟨fun s t n h => ?newcipher, fun s t h => ?blocksize⟩
  case newcipher =>
    have hslots : ∀ k, k ≠ n → t.slot k = s.slot k := fun k hk => exec_slot h fun hn => hk (Instr.newcipher.inj hn).symm
    rcases execNewcipher_cases n s with ⟨c, -, hrun⟩ | ⟨-, -, hrun⟩ | ⟨-, -, -, hrun⟩ <;> rw [exec, hrun] at h <;>
      injection h with h <;> subst h
    · exact ⟨fun _ => rfl, rfl, rfl, rfl, rfl, rfl, rfl, rfl, hslots, fun hne => absurd rfl hne, .inl ⟨c, rfl⟩⟩
    · exact ⟨fun _ => rfl, rfl, rfl, rfl, rfl, rfl, rfl, State.nslots_setSlot .., hslots, fun hne => absurd rfl hne,
        .inr ⟨rfl, .inr rfl⟩⟩
    · have hsel : (engineFor s).2.engineSel ≠ s.engineSel → s.engineSel = .unset := fun hne =>
        by_contra fun hset => hne ((engineFor_tag s).2.1 hset)
      have hnslots := State.nslots_setSlot (engineFor s).2
      rw [engineFor_state] at hnslots hslots ⊢
      exact ⟨fun _ => rfl, rfl, rfl, rfl, rfl, rfl, rfl, hnslots .., hslots, hsel, .inr ⟨rfl, .inl rfl⟩⟩
  case blocksize =>
    injection h with h
    rw [← h]
    rfl

/-! ### The round trip (R230) -/

/-- R226 to R228: a block command that passes its checks leaves the transformed block at the destination, and the slots and
the canonical form of memory as they were. -/
theorem runBlockCommand_writes {n : Nat} {s : State} (d : Direction) (v : U64) (h : blockCommandFault n s = none)
    (hm : s.mem.wf = true) : ∃ t, runBlockCommand d n v s = .next t ∧ t.mem.readBlock (s.operandNat .dstAddr) =
      encryptBlock ((s.slot n).keys d) (s.mem.readBlock (s.operandNat .srcAddr)) ∧
      t.mem.wf = true ∧ t.slots = s.slots := by
  have hdst := dst_inRange_of_noFault h
  obtain ⟨w, k, hrun⟩ := runBlockCommand_of_noFault (d := d) v h
  refine ⟨_, hrun, ?_, ?_, rfl⟩ <;> rw [State.setResult_mem, State.storeBlock_mem]
  · exact Memory.readBlock_writeBlock _ hm hdst
  · exact Memory.wf_writeBlock _ hm hdst

/-- Settles O43: DECRYPT reads what ENCRYPT wrote and transforms it with the mirrored keys of the same slot. -/
theorem roundTripThroughTheMachine : Obligations.RoundTripThroughTheMachine := by
  intro s w n hs hmirror hm
  have hchecks := noFault_of_ready hs
  obtain ⟨t, hrun, hcipher, hwf, hslots⟩ := runBlockCommand_writes .encrypt (encode (.encrypt n)) hchecks hm
  refine ⟨t, hrun, fun hwm hws _ hw hsrc => ?_⟩
  obtain ⟨x, hrun', hplain, -, -⟩ := runBlockCommand_writes .decrypt (encode (.decrypt n)) (noFault_of_ready hw)
    (hwm ▸ hwf)
  have hslot : w.slot n = s.slot n := by rw [State.slot, hws, hslots, State.slot]
  refine ⟨x, hrun', ?_⟩
  rw [hplain, hslot, hsrc, hwm, hcipher]
  exact decryptBlock_encryptBlock (Slot.mirrored_iff.mp hmirror (valid_of_noFault hchecks)) _

end Sys2Proof.Machine
end

