-- ==== Sys2Proof/Proofs/Buffers.lean ====
section
/-! The statements about host memory (spec/20_memory.md): which buffers a command accepts (R78, R80, R83), what a command
reads of host memory and writes to it (R71, R81), and the host's own stores and loads (R70, R82, R85). -/

namespace Sys2Proof.Machine

/-! ### Block commands -/

/-- R226, R227: ENCRYPT and DECRYPT are the block command in one direction each, whatever the state. -/
theorem exec_eq_runBlockCommand {i : Instr} {n : Nat} (hi : i = .encrypt n ∨ i = .decrypt n) :
    ∃ d, ∀ s, exec i s = runBlockCommand d n (encode i) s := by
  obtain rfl | rfl := hi
  · exact ⟨.encrypt, fun _ => rfl⟩
  · exact ⟨.decrypt, fun _ => rfl⟩

/-! ### Which buffers are accepted (R78, R80, R83) -/

/-- R255: under the conditions that come before the overlap check, only the overlap and the admission are left to check. -/
theorem blockCommandFault_of_readyUpToOverlap {n : Nat} {s : State} (h : ReadyUpToOverlap n s) :
    blockCommandFault n s =
      if inexactOverlap (s.operandNat .srcAddr) (s.operandNat .dstAddr) then some .overlap
      else if !(memAdmit s.platform (s.operandNat .srcAddr) 16 .read && memAdmit s.platform (s.operandNat .dstAddr) 16 .write)
      then some .busError else none := by
  obtain ⟨hslot, ⟨hsa, hsl, hda, hdl⟩, hvalid, haccel, hsrcLen, hdstLen, hsrc, hdst⟩ := h
  have hcap : (decide ((s.slot n).tag = .accel) && !s.platform.capAes) = false := by simpa using haccel
  have hwritten : s.allWritten blockOperands = true := by rw [allWritten_blockOperands, hsa, hsl, hda, hdl]; rfl
  simp only [blockCommandFault, Nat.not_le.mpr hslot, hwritten, hvalid, hcap, Nat.not_lt.mpr hsrcLen, Nat.not_lt.mpr hdstLen,
    inRange_iff.mpr hsrc, inRange_iff.mpr hdst, Bool.not_true, Bool.or_self, Bool.false_eq_true, if_false]

/-- R80: identical and disjoint blocks do not overlap inexactly. -/
theorem inexactOverlap_of_identicalOrDisjoint {a b : Nat} (h : IdenticalOrDisjoint a b) : inexactOverlap a b = false := by
  rw [← Bool.not_eq_true, inexactOverlap_iff]
  unfold IdenticalOrDisjoint at h
  omega

/-- Settles O24: after the checks before it, the overlap check decides. -/
theorem inexactOverlapFaults : Obligations.InexactOverlapFaults := by
  intro s n hs
  refine ⟨fun h1 h2 hne => ?overlap, fun hid hadmit => ?accepted⟩
  case overlap =>
    have hfault : blockCommandFault n s = some .overlap := by
      rw [blockCommandFault_of_readyUpToOverlap hs, if_pos (inexactOverlap_iff.mpr ⟨h1, h2, hne⟩)]
    exact ⟨_, _, runBlockCommand_of_fault hfault, rfl, runBlockCommand_of_fault hfault, rfl⟩
  case accepted =>
    have hnone := noFault_of_ready ⟨hs, hid, hadmit⟩
    obtain ⟨_, _, hencrypt⟩ := runBlockCommand_of_noFault (d := .encrypt) (encode (.encrypt n)) hnone
    obtain ⟨_, _, hdecrypt⟩ := runBlockCommand_of_noFault (d := .decrypt) (encode (.decrypt n)) hnone
    exact ⟨_, _, hencrypt, rfl, hdecrypt, rfl⟩

/-- R83: no access to a range with a byte in the register block is admitted. -/
theorem memAdmit_of_mem_registerBlock {p : Platform} {a n x : Nat} (k : AccessKind) (h1 : a ≤ x) (h2 : x < a + n)
    (h3 : p.mmioBase.toNat ≤ x) (h4 : x < p.mmioBase.toNat + 256) : memAdmit p a n k = false := by
  rw [memAdmit, meetsRegisterBlock_of_mem h1 h2 h3 h4]
  rfl

/-- Settles O25: such a buffer is not admitted, and the admission is the last check of every command that has a buffer. -/
theorem registerBlockIsNeverABuffer : Obligations.RegisterBlockIsNeverABuffer := by
  refine ⟨fun p a n x k => memAdmit_of_mem_registerBlock k, fun s n x i hi hs hid hbuffer h3 h4 => ?block,
    fun s n x hslot hka hkl hlen hrange h1 h2 h3 h4 => ?key⟩
  case block =>
    have hadmit : (memAdmit s.platform (s.operandNat .srcAddr) 16 .read &&
        memAdmit s.platform (s.operandNat .dstAddr) 16 .write) = false := by
      obtain ⟨h1, h2⟩ | ⟨h1, h2⟩ := hbuffer
      · rw [memAdmit_of_mem_registerBlock .read h1 h2 h3 h4, Bool.false_and]
      · rw [memAdmit_of_mem_registerBlock .write h1 h2 h3 h4, Bool.and_false]
    have hfault : blockCommandFault n s = some .busError := by
      rw [blockCommandFault_of_readyUpToOverlap hs, inexactOverlap_of_identicalOrDisjoint hid, hadmit]
      rfl
    obtain ⟨d, hexec⟩ := exec_eq_runBlockCommand hi
    exact (hexec s).trans (runBlockCommand_of_fault hfault)
  case key =>
    have hfault : keyBufferFault s = some .busError := by
      rw [keyBufferFault, inRange_iff.mpr hrange, memAdmit_of_mem_registerBlock .read h1 h2 h3 h4]
      rfl
    exact execNewcipher_of_bufferFault (newcipherOperandFault_eq_none_iff.mpr ⟨hslot, hka, hkl⟩) hlen hfault

/-! ### What a command reads and writes (R71, R81) -/

/-- R228: the transform of a block reads no host memory. -/
theorem transformBlock_mem (d : Direction) (tag : Tag) (keys : RoundKeys) (p : Block) (s : State) (m : Memory) :
    transformBlock d tag keys p { s with mem := m } =
      (transformBlock d tag keys p s).map fun r => (r.1, { r.2 with mem := m }) := by
  cases tag with
  | generic => cases d <;> rfl
  | accel =>
    simp only [transformBlock, accelSingle_eq]
    split <;> rfl

/-- R221: the dispatcher reads no host memory. -/
theorem engineFor_mem (s : State) (m : Memory) :
    engineFor { s with mem := m } = ((engineFor s).1, { (engineFor s).2 with mem := m }) := by
  cases h : s.engineSel <;> simp only [engineFor, h]

/-- R71: over every host memory with the same source block, a block command that passes its checks writes the same block and
leaves the same WR. -/
theorem runBlockCommand_of_readBlock_eq {n : Nat} {s : State} (d : Direction) (v : U64)
    (h : blockCommandFault n s = none) : ∃ w k c, ∀ m : Memory,
      m.readBlock (s.operandNat .srcAddr) = s.mem.readBlock (s.operandNat .srcAddr) →
      runBlockCommand d n v { s with mem := m } =
        .next ((({ s with mem := m, wr := w, draws := k } : State).storeBlock (s.operandNat .dstAddr) c).setResult 0) := by
  obtain ⟨⟨c, t⟩, htransform⟩ := transformBlock_isSome (d := d) (keys := (s.slot n).keys d)
    (p := s.mem.readBlock (s.operandNat .srcAddr)) (s := s) (capAes_of_noFault h)
  refine ⟨t.wr, t.draws, c, fun m hm => ?_⟩
  have htransform' : transformBlock d (s.slot n).tag ((s.slot n).keys d) (m.readBlock (s.operandNat .srcAddr))
      { s with mem := m } = some (c, { s with mem := m, wr := t.wr, draws := t.draws }) := by
    rw [transformBlock_mem, hm, htransform, transformBlock_state htransform]
    rfl
  rcases runBlockCommand_cases d n v { s with mem := m } with ⟨c', hc, -⟩ | ⟨-, c', u, hu, -, hrun⟩
  · exact absurd (h.symm.trans hc) (by simp)
  · obtain ⟨rfl, rfl⟩ := Prod.mk.inj (Option.some.inj (htransform'.symm.trans hu))
    exact hrun

/-- Settles O28: the block, the round keys and what is left of the engine come from the buffer and the engine alone. -/
theorem commandsReadOnlyTheirBuffers : Obligations.CommandsReadOnlyTheirBuffers := by
  refine ⟨fun s m n i hi hs hm hwf hwf' => ?block, fun s m n ⟨hslot, hka, hkl, hlen, hrange, hadmit⟩ hm => ?key⟩
  case block =>
    have hchecks := noFault_of_ready hs
    have hdst := dst_inRange_of_noFault hchecks
    obtain ⟨d, hexec⟩ := exec_eq_runBlockCommand hi
    obtain ⟨w, k, c, hrun⟩ := runBlockCommand_of_readBlock_eq d (encode i) hchecks
    refine ⟨_, _, (hexec s).trans (hrun s.mem rfl), (hexec _).trans (hrun m hm), rfl, ?_⟩
    exact (Memory.readBlock_writeBlock c hwf' hdst).trans (Memory.readBlock_writeBlock c hwf hdst).symm
  case key =>
    have hops := newcipherOperandFault_eq_none_iff.mpr ⟨hslot, hka, hkl⟩
    have hbuffer := keyBufferFault_eq_none_iff.mpr ⟨hrange, hadmit⟩
    refine ⟨_, execNewcipher_of_noFault hops hlen hbuffer, ?_⟩
    rw [exec, execNewcipher_of_noFault (s := { s with mem := m }) hops hlen hbuffer, engineFor_mem, ← hm]
    rfl

/-- Settles O44: wherever the destination is, the command writes EncryptBlock of the source block as it was before the
command. -/
theorem inPlaceIsExact : Obligations.InPlaceIsExact := by
  intro s n tmp i hi hs hinPlace htmp _ hm
  obtain ⟨d, hexec⟩ := exec_eq_runBlockCommand hi
  obtain ⟨t, hrun, hblock, -, -⟩ := runBlockCommand_writes d (encode i) (noFault_of_ready hs) hm
  obtain ⟨u, hrun', hblock', -, -⟩ := runBlockCommand_writes d (encode i) (noFault_of_ready htmp) hm
  refine ⟨t, u, (hexec _).trans hrun, (hexec _).trans hrun', ?_⟩
  rw [hinPlace, hblock]
  exact hblock'.symm

/-! ### The host's own accesses (R70, R82, R85; log entries 3, 7 and 11) -/

/-- A host store inside the address space and outside the register block writes its bytes. -/
theorem step_storeBytes {s : State} {addr : U64} {data : List Byte} {rest : List HostAccess}
    (hi : s.inbox = .storeBytes addr data :: rest) (hrange : addr.toNat + data.length ≤ 2 ^ 64)
    (hmeets : meetsRegisterBlock s.platform addr.toNat data.length = false) :
    step s = .next { s with inbox := rest, mem := s.mem.writeBytes addr.toNat data } := by
  simp [step, takeNext, hi, takeAccess, storeHostBytes, hmeets, inRange_iff.mpr hrange]

/-- A host load inside the address space and outside the register block receives the bytes of memory. -/
theorem step_loadBytes {s : State} {addr : U64} {n : Nat} {rest : List HostAccess}
    (hi : s.inbox = .loadBytes addr n :: rest) (hrange : addr.toNat + n ≤ 2 ^ 64)
    (hmeets : meetsRegisterBlock s.platform addr.toNat n = false) :
    step s = .next { s with inbox := rest, reads := s.reads ++ [.bytes (s.mem.readBytes addr.toNat n)] } := by
  simp [step, takeNext, hi, takeAccess, loadHostBytes, hmeets, inRange_iff.mpr hrange, State.logRead]

/-- Settles O58: a store is one write of a byte string and a load one read of it. -/
theorem hostStoresReachMemory : Obligations.HostStoresReachMemory := by
  refine ⟨fun s addr data rest hi hrange hmeets hm => ?store, fun s addr n rest hi hrange hmeets => ?load⟩
  case store =>
    exact ⟨_, step_storeBytes hi hrange hmeets, Memory.readBytes_writeBytes data hm hrange,
      fun _ ha => Memory.read_writeBytes_outside s.mem data ha, rfl⟩
  case load =>
    exact ⟨_, step_loadBytes hi hrange hmeets, rfl, Memory.length_readBytes ..,
      fun i h => Memory.getElem_readBytes _ _ n i h⟩

end Sys2Proof.Machine
end

