-- ==== Sys2Proof/Proofs/Encoding.lean ====
section
/-! The statements about command words (spec/30_encoding.md): what the fields of a word and of a command's word are (R100),
which words decode to a command (R102, R105), and which fault with ILLEGAL_COMMAND (R104, R106, R107). -/

namespace Sys2Proof.Machine

/-! ### The fields of a word (R100) -/

theorem rsvField_toNat (v : U64) : (rsvField v).toNat = v.toNat / 65536 := by
  have hv := v.isLt
  simp only [rsvField, BitVec.extractLsb'_toNat, Nat.shiftRight_eq_div_pow]
  omega

theorem slotField_toNat (v : U64) : (slotField v).toNat = v.toNat / 256 % 256 := by
  simp [slotField, Nat.shiftRight_eq_div_pow]

theorem opcField_toNat (v : U64) : (opcField v).toNat = v.toNat % 256 := by
  simp [opcField]

/-- RSV is what lies above bit 15 (R104). -/
theorem rsvField_eq_zero_iff (v : U64) : rsvField v = 0 ↔ v >>> 16 = 0 := by
  rw [← BitVec.toNat_inj, ← BitVec.toNat_inj, rsvField_toNat, BitVec.toNat_ushiftRight, Nat.shiftRight_eq_div_pow]
  rfl

/-- A word has no bits besides its three fields. -/
theorem word_ext {v w : U64} (hrsv : rsvField v = rsvField w) (hslot : slotField v = slotField w)
    (hopc : opcField v = opcField w) : v = w := by
  rw [← BitVec.toNat_inj] at hrsv hslot hopc ⊢
  rw [rsvField_toNat, rsvField_toNat] at hrsv
  rw [slotField_toNat, slotField_toNat] at hslot
  rw [opcField_toNat, opcField_toNat] at hopc
  omega

/-! ### The word of a command (R102, R110) -/

theorem encode_toNat (i : Instr) : (encode i).toNat = slotOf i % 256 * 256 + (opcodeOf i).toNat := by
  have hshift : (slotOf i % 256) <<< 8 < 2 ^ 64 := by rw [Nat.shiftLeft_eq]; omega
  rw [encode, BitVec.toNat_or, BitVec.toNat_shiftLeft, BitVec.toNat_setWidth_of_le (by decide),
    BitVec.toNat_setWidth_of_le (by decide), BitVec.toNat_ofNat, Nat.mod_eq_of_lt hshift,
    ← Nat.shiftLeft_add_eq_or_of_lt (opcodeOf i).isLt, Nat.shiftLeft_eq]

@[simp] theorem rsvField_encode (i : Instr) : rsvField (encode i) = 0 := by
  have hopc := (opcodeOf i).isLt
  apply BitVec.eq_of_toNat_eq
  rw [rsvField_toNat, encode_toNat]
  exact Nat.div_eq_of_lt (by omega)

@[simp] theorem slotField_encode (i : Instr) : slotField (encode i) = BitVec.ofNat 8 (slotOf i) := by
  have hopc := (opcodeOf i).isLt
  apply BitVec.eq_of_toNat_eq
  rw [slotField_toNat, encode_toNat, BitVec.toNat_ofNat]
  omega

@[simp] theorem opcField_encode (i : Instr) : opcField (encode i) = opcodeOf i := by
  have hopc := (opcodeOf i).isLt
  apply BitVec.eq_of_toNat_eq
  rw [opcField_toNat, encode_toNat]
  omega

/-! ### The mask of a command with a slot (R102): it keeps RSV and OPC -/

theorem rsvField_and_mask (v : U64) : rsvField (v &&& 0xFFFFFFFFFFFF00FF#64) = rsvField v := by
  rw [rsvField, BitVec.extractLsb'_and]
  exact BitVec.and_allOnes

theorem slotField_and_mask (v : U64) : slotField (v &&& 0xFFFFFFFFFFFF00FF#64) = 0 := by
  rw [slotField, BitVec.extractLsb'_and]
  exact BitVec.and_zero

theorem opcField_and_mask (v : U64) : opcField (v &&& 0xFFFFFFFFFFFF00FF#64) = opcField v := by
  rw [opcField, BitVec.extractLsb'_and]
  exact BitVec.and_allOnes

/-- The match of a row with a slot is its command's word at slot 0; a masked word is that match exactly when the word has
the row's opcode and no reserved bit. -/
theorem and_mask_eq_encode_iff {i : Instr} (hi : slotOf i = 0) (v : U64) :
    v &&& 0xFFFFFFFFFFFF00FF#64 = encode i ↔ rsvField v = 0 ∧ opcField v = opcodeOf i := by
  constructor
  · intro h
    rw [← rsvField_and_mask, ← opcField_and_mask, h]
    exact ⟨rsvField_encode i, opcField_encode i⟩
  · rintro ⟨hrsv, hopc⟩
    apply word_ext
    · rw [rsvField_and_mask, rsvField_encode, hrsv]
    · rw [slotField_and_mask, slotField_encode, hi]; rfl
    · rw [opcField_and_mask, opcField_encode, hopc]

/-! ### Which words decode (R102 to R107) -/

/-- A command is well-formed when its slot index fits the 8 bits of SLOT (R103). -/
theorem wellFormed_iff (i : Instr) : i.wellFormed = true ↔ slotOf i < 256 := by
  cases i with
  | blocksize => simp [Instr.wellFormed, slotOf]
  | newcipher n | encrypt n | decrypt n => exact decide_eq_true_iff

/-- R105: a word decodes to a command exactly when it has no reserved bit, the command's opcode and its slot index (0 for
BLOCKSIZE). -/
theorem decode_eq_ok_iff {v : U64} {i : Instr} :
    decode v = .ok i ↔ rsvField v = 0 ∧ opcField v = opcodeOf i ∧ (slotField v).toNat = slotOf i := by
  constructor
  · intro h
    simp only [decode] at h
    split_ifs at h with hrsv hnewcipher hblocksize hslot hencrypt hdecrypt <;> cases h
    · exact ⟨not_not.mp hrsv, hnewcipher, rfl⟩
    · exact ⟨not_not.mp hrsv, hblocksize, not_not.mp hslot⟩
    · exact ⟨not_not.mp hrsv, hencrypt, rfl⟩
    · exact ⟨not_not.mp hrsv, hdecrypt, rfl⟩
  · rintro ⟨hrsv, hopc, hslot⟩
    cases i with
    | newcipher n | blocksize | encrypt n | decrypt n => simp_all [decode, opcodeOf, slotOf]

/-- Settles O1: the fields of the command's word are the command's, the slot index because it fits SLOT. -/
theorem decodeOfEncodeIsTheCommand : Obligations.DecodeOfEncodeIsTheCommand := by
  intro i hi
  refine decode_eq_ok_iff.mpr ⟨rsvField_encode i, opcField_encode i, ?_⟩
  rw [slotField_encode, BitVec.toNat_ofNat, Nat.mod_eq_of_lt ((wellFormed_iff i).mp hi)]

/-- Settles O2: the word and the word of its command agree in all three fields. -/
theorem encodeOfDecodeIsTheWord : Obligations.EncodeOfDecodeIsTheWord := by
  intro v i h
  obtain ⟨hrsv, hopc, hslot⟩ := decode_eq_ok_iff.mp h
  constructor
  · rw [wellFormed_iff, ← hslot]
    exact (slotField v).isLt
  · apply word_ext
    · rw [rsvField_encode, hrsv]
    · rw [slotField_encode, ← hslot, BitVec.ofNat_toNat, BitVec.setWidth_eq]
    · rw [opcField_encode, hopc]

/-- The row of a command with a slot, read through its mask. -/
theorem decode_eq_ok_iff_and_mask {i j : Instr} (hj : slotOf j = 0) (hij : opcodeOf j = opcodeOf i) (v : U64) :
    decode v = .ok i ↔ v &&& 0xFFFFFFFFFFFF00FF#64 = encode j ∧ slotOf i = (v >>> 8).toNat % 256 := by
  rw [decode_eq_ok_iff, and_mask_eq_encode_iff hj, hij, slotField_toNat, BitVec.toNat_ushiftRight,
    Nat.shiftRight_eq_div_pow, and_assoc, eq_comm (a := slotOf i)]

/-- Only the word 2 decodes to BLOCKSIZE (R102, R107). -/
theorem decode_eq_blocksize_iff (v : U64) : decode v = .ok .blocksize ↔ v = encode .blocksize :=
  ⟨fun h => (encodeOfDecodeIsTheWord v _ h).2.symm, fun h => h ▸ decodeOfEncodeIsTheCommand .blocksize rfl⟩

/-- Settles O3, row by row: the match of a row with a slot is the row's word at slot 0, and BLOCKSIZE's mask keeps the
whole word. -/
theorem decodeAgreesWithMatchAndMask : Obligations.DecodeAgreesWithMatchAndMask := by
  intro v n
  refine ⟨?newcipher, ?blocksize, ?encrypt, ?decrypt⟩
  case newcipher => exact decode_eq_ok_iff_and_mask (i := .newcipher n) (j := .newcipher 0) rfl rfl v
  case blocksize =>
    have hmask : v &&& 0xFFFFFFFFFFFFFFFF#64 = v := BitVec.and_allOnes
    rw [hmask]
    exact decode_eq_blocksize_iff v
  case encrypt => exact decode_eq_ok_iff_and_mask (i := .encrypt n) (j := .encrypt 0) rfl rfl v
  case decrypt => exact decode_eq_ok_iff_and_mask (i := .decrypt n) (j := .decrypt 0) rfl rfl v

/-- Settles O4: the four words are the words of their commands, and each other word fails one check of R105. -/
theorem specWordsDecode : Obligations.SpecWordsDecode :=
  ⟨decodeOfEncodeIsTheCommand (.newcipher 2) rfl, decodeOfEncodeIsTheCommand .blocksize rfl,
    decodeOfEncodeIsTheCommand (.encrypt 1) rfl, decodeOfEncodeIsTheCommand (.decrypt 255) rfl,
    by decide, by decide, by decide⟩

/-! ### Words that decode to no command (R104, R106, R107) -/

/-- R223: a word that is no command, written to CMD of an engine that is not in the fault state, faults with
ILLEGAL_COMMAND. -/
theorem onCmdWrite_of_decode_error {v : U64} {s : State} {e : Illegal} (hs : s.status.fault = false)
    (he : decode v = .error e) : onCmdWrite v s = .next (s.accept.raiseFault .illegalCommand v) := by
  simp [onCmdWrite, hs, he]

/-- A word that decodes has no bit above 15, an opcode from 1 to 4, and SLOT = 0 when the opcode is BLOCKSIZE's. -/
theorem fields_of_decode_eq_ok {v : U64} {i : Instr} (h : decode v = .ok i) :
    v >>> 16 = 0 ∧ (1 ≤ v.toNat % 256 ∧ v.toNat % 256 ≤ 4) ∧ (v.toNat % 256 = 2 → v.toNat / 256 % 256 = 0) := by
  obtain ⟨hrsv, hopc, hslot⟩ := decode_eq_ok_iff.mp h
  rw [← opcField_toNat, ← slotField_toNat, hopc, hslot]
  refine ⟨(rsvField_eq_zero_iff v).mp hrsv, ?_⟩
  cases i with
  | blocksize | newcipher n | encrypt n | decrypt n => simp [opcodeOf, slotOf]

/-- Settles O5: each of the illegal classes contradicts what a word that decodes must meet. -/
theorem illegalWordsFault : Obligations.IllegalWordsFault := by
  intro s v rest hi hs hv
  cases hd : decode v with
  | error e => exact (step_cmd hi).trans (onCmdWrite_of_decode_error hs hd)
  | ok i =>
    obtain ⟨hrsv, hopc, hslot⟩ := fields_of_decode_eq_ok hd
    rcases hv with (hr | hz | hbig) | ⟨htwo, hne⟩
    · exact absurd hrsv hr
    · omega
    · omega
    · exact absurd (hslot htwo) hne

end Sys2Proof.Machine
end

