-- ==== Sys2Proof/Proofs/UnreachableCauses.lean ====
section
/-! The fault causes no step records (spec/60_exceptions.md R259): under the dispatch invariant (R222, R285) no valid slot is
bound to an engine the platform lacks (R196), and Expand is called with 16 bytes only (R136). -/

namespace Sys2Proof.Machine

/-- R259: a code other than those of ACCEL_UNSUPPORTED and INTERNAL. -/
abbrev ReachableCode (code : Byte) : Prop := code ≠ 0x0A#8 ∧ code ≠ 0x0B#8

theorem reachableCode_zero : ReachableCode 0 := by decide

theorem reachableCode_keySize : ReachableCode ErrorCause.keySize.code := by decide

theorem reachableCode_illegalCommand : ReachableCode FaultCause.illegalCommand.code := by decide

/-- R226: the checks of a block command do not use INTERNAL, and with the backend erased, which under the dispatch invariant
changes no check, every slot is a GENERIC slot, so the check of R196 never fails. -/
theorem blockCommandFault_reachableCode {s : State} {n : Nat} {c : FaultCause} (hs : s.dispatchInv = true)
    (h : blockCommandFault n s = some c) : ReachableCode c.code := by
  have hgeneric : (s.eraseBackend.slot n).tag ≠ .accel := by rw [State.slot_eraseBackend, Slot.eraseBackend_tag]; decide
  rw [← blockCommandFault_eraseBackend hs] at h
  simp only [blockCommandFault, decide_eq_false hgeneric, Bool.false_and, Bool.false_eq_true, if_false] at h
  split_ifs at h <;> cases h <;> decide

theorem runBlockCommand_reachableCode {d : Direction} {n : Nat} {v : U64} {s t : State} (hs : s.dispatchInv = true)
    (hcode : ReachableCode s.status.code) (h : runBlockCommand d n v s = .next t) : ReachableCode t.status.code := by
  rcases runBlockCommand_cases d n v s with ⟨c, hc, hrun⟩ | ⟨-, b, u, -, hu, hrun⟩ <;> rw [hrun] at h <;>
    injection h with h <;> subst h
  · exact blockCommandFault_reachableCode hs hc
  · rw [hu]
    exact hcode

theorem newcipherFault_reachableCode {n : Nat} {s : State} {c : FaultCause}
    (h : newcipherOperandFault n s = some c ∨ newcipherOperandFault n s = none ∧ keyBufferFault s = some c) :
    ReachableCode c.code := by
  rcases newcipher_cause h with rfl | rfl | rfl | rfl <;> decide

/-- R224: NEWCIPHER hands Expand 16 bytes, so INTERNAL is not among its faults. -/
theorem execNewcipher_reachableCode {n : Nat} {s t : State} (hcode : ReachableCode s.status.code)
    (h : execNewcipher n s = .next t) : ReachableCode t.status.code := by
  rcases execNewcipher_cases n s with ⟨c, hc, hrun⟩ | ⟨-, -, hrun⟩ | ⟨-, -, -, hrun⟩ <;> rw [hrun] at h <;>
    injection h with h <;> subst h
  · exact newcipherFault_reachableCode hc
  · exact reachableCode_keySize
  · rw [engineFor_state]
    exact hcode

theorem exec_reachableCode {i : Instr} {s t : State} (hs : s.dispatchInv = true) (hcode : ReachableCode s.status.code)
    (h : exec i s = .next t) : ReachableCode t.status.code := by
  cases i with
  | newcipher n => exact execNewcipher_reachableCode hcode h
  | blocksize =>
    injection h with h
    exact h ▸ hcode
  | encrypt n => exact runBlockCommand_reachableCode hs hcode h
  | decrypt n => exact runBlockCommand_reachableCode hs hcode h

/-- R223: a command word that is dropped keeps CODE, one that is illegal has its own code, and an accepted command starts
from CODE = 0. -/
theorem onCmdWrite_reachableCode {v : U64} {s t : State} (hs : s.dispatchInv = true) (hcode : ReachableCode s.status.code)
    (h : onCmdWrite v s = .next t) : ReachableCode t.status.code := by
  rcases onCmdWrite_cases h with ⟨-, rfl⟩ | ⟨-, -, rfl⟩ | ⟨-, i, -, h⟩
  · exact hcode
  · exact reachableCode_illegalCommand
  · exact exec_reachableCode (s := s.accept) hs reachableCode_zero h

/-- Settles O50: of the accesses a step takes, only reset and a write to CMD touch STATUS; reset clears CODE, and under the
dispatch invariant no command records one of the two causes. -/
theorem unreachableCausesStayUnreached : Obligations.UnreachableCausesStayUnreached := by
  intro s t hs haccel hinternal h
  have hcode : ReachableCode s.status.code := ⟨haccel, hinternal⟩
  rcases step_engine_cases h with ⟨_, _, _, rfl⟩ | ⟨rest, hi⟩ | ⟨v, rest, -, h⟩ | ⟨_, _, _, _, -, -, rfl⟩
  · exact hcode
  · rw [step_rst hi] at h
    injection h with h
    subst h
    exact reachableCode_zero
  · exact onCmdWrite_reachableCode (s := { s with inbox := rest }) hs hcode h
  · exact hcode

end Sys2Proof.Machine
end

