-- ==== Sys2Proof/Proofs/KeySchedule.lean ====
section
/-! The key schedule (spec/40_key_schedule.md): the recurrence of R135 over the whole sequence K, the mirrored order of R137
with the key length of R136, and the linearity of L' beside L (R133; spec/41_generic_round.md R152). -/

namespace Sys2Proof.Machine

/-! ### The recurrence (R135) -/

/-- R135: the sequence K from the seed `k` on, the four seed words first, for the listed round constants. -/
def keyWords (cks : List Word) (k : Words4) : List Word := k.x0 :: k.x1 :: k.x2 :: k.x3 :: scheduleFrom cks k

/-- The sequence after its first word is the sequence from the next four words on. -/
theorem keyWords_cons (ck : Word) (cks : List Word) (k : Words4) :
    keyWords (ck :: cks) k = k.x0 :: keyWords cks ⟨k.x1, k.x2, k.x3, nextKey k ck⟩ := rfl

/-- R135: every word after the seed is made from the four words before it and its round constant. -/
theorem getD_keyWords (cks : List Word) (k : Words4) {i : Nat} (h : i < cks.length) :
    (keyWords cks k).getD (i + 4) 0 = nextKey ⟨(keyWords cks k).getD i 0, (keyWords cks k).getD (i + 1) 0,
      (keyWords cks k).getD (i + 2) 0, (keyWords cks k).getD (i + 3) 0⟩ cks[i] := by
  induction cks generalizing k i with
  | nil => exact absurd h (Nat.not_lt_zero i)
  | cons ck cks ih =>
    cases i with
    | zero => rfl
    | succ i =>
      rw [keyWords_cons]
      exact ih _ (Nat.lt_of_succ_lt_succ h)

/-- R131: the round constants in order. -/
def roundConstants : List Word := (List.range 32).map roundCK

theorem encKeys_toList (key : Block) :
    (encKeys key).toList = scheduleFrom roundConstants (seedKeys (wordsOf key)) := rfl

/-- R130, R135: the sequence K of a key: its words xor FK, then its round keys. -/
theorem getD_keyWords_of_key (key : Block) (j : Nat) :
    (keyWords roundConstants (seedKeys (wordsOf key))).getD j 0 =
      if j < 4 then (wordsOf key).get j ^^^ systemFK.get j else (encKeys key).toList.getD (j - 4) 0 := by
  match j with
  | 0 | 1 | 2 | 3 => rfl
  | j + 4 => rw [if_neg (by omega), encKeys_toList]; rfl

/-- R135: round key `i` stands after the four seed words of the sequence. -/
theorem getElem_encKeys (key : Block) {i : Nat} (hi : i < 32) :
    (encKeys key)[i] = (keyWords roundConstants (seedKeys (wordsOf key))).getD (i + 4) 0 := by
  rw [getD_keyWords_of_key, if_neg (by omega), Nat.add_sub_cancel, List.getD_eq_getElem _ _ (by simpa using hi),
    Vector.getElem_toList]

/-- Settles O29: the obligation's K is the sequence `keyWords`, which follows the recurrence. -/
theorem keyScheduleRecurrence : Obligations.KeyScheduleRecurrence := by
  intro key i hi
  have hlen : i < roundConstants.length := by simpa [roundConstants] using hi
  have hck : roundConstants[i] = roundCK i := by simp [roundConstants]
  simp only [← getD_keyWords_of_key]
  rw [getElem_encKeys key hi, getD_keyWords _ _ hlen, hck, nextKey]

/-! ### Expand (R136, R137) -/

theorem expand_isSome_iff (key : List Byte) : (expand key).isSome = true ↔ key.length = 16 := by
  by_cases h : key.length = 16 <;> simp [expand, h]

/-- R137: the second key sequence of Expand is the first one mirrored. -/
theorem dec_eq_mirrorKeys_of_expand {key : List Byte} {enc dec : RoundKeys} (h : expand key = some (enc, dec)) :
    dec = mirrorKeys enc := by
  rw [expand] at h
  split at h
  · injection h with h
    injection h with henc hdec
    rw [← hdec, ← henc]
  · contradiction

/-- Settles O30: Expand mirrors the encryption keys, and asks for nothing but the key length. -/
theorem expandMirrorsTheKeys : Obligations.ExpandMirrorsTheKeys := by
  refine ⟨fun key enc dec h i hi => ?_, expand_isSome_iff⟩
  rw [dec_eq_mirrorKeys_of_expand h, getElem_mirrorKeys]

/-! ### Linearity of the diffusions (R133, R152) -/

theorem diffuse_xor (a b : Word) : diffuse (a ^^^ b) = diffuse a ^^^ diffuse b := by
  simp (disch := omega) only [diffuse, rotl32_xor]
  ac_rfl

theorem keyDiffuse_xor (a b : Word) : keyDiffuse (a ^^^ b) = keyDiffuse a ^^^ keyDiffuse b := by
  simp (disch := omega) only [keyDiffuse, rotl32_xor]
  ac_rfl

/-- Settles O34: rotations are linear, and both transforms are sums of rotations. -/
theorem diffusionIsLinear : Obligations.DiffusionIsLinear := fun a b =>
  ⟨diffuse_xor a b, keyDiffuse_xor a b, by decide, by decide⟩

end Sys2Proof.Machine
end

