-- ==== Sys2Proof/Proofs/Ports.lean ====
section
/-! The ports of the combinational sub-blocks (spec/40_key_schedule.md R139, spec/41_generic_round.md R161,
spec/42_accelerated_round.md R199, spec/43_batch_adapter.md R215): a port carries its byte string, so each sub-block computes
its operation. -/

namespace Sys2Proof.Machine

/-- One more byte on a port of `w` bits, below those that are on it. -/
def pushByte {w : Nat} (acc : BitVec w) (x : Byte) : BitVec w := (acc <<< 8) ||| x.zeroExtend w

theorem portOf_eq_foldl {n : Nat} (b : Vector Byte n) : portOf b = b.toList.foldl pushByte 0 := rfl

/-- The pushed byte is in the low 8 bits, and what was there is 8 bits higher. -/
theorem getLsbD_pushByte {w : Nat} (acc : BitVec w) (x : Byte) {j : Nat} (hj : j < w) :
    (pushByte acc x).getLsbD j = if j < 8 then x.getLsbD j else acc.getLsbD (j - 8) := by
  rw [pushByte, BitVec.getLsbD_or, BitVec.getLsbD_shiftLeft, BitVec.getLsbD_setWidth, decide_eq_true hj]
  split_ifs with h
  · simp [h]
  · simp [h, BitVec.getLsbD_of_ge x j (Nat.le_of_not_lt h)]

/-- Counted from the least significant end, byte `k` of a port is byte `k` from the end of the string pushed onto it. -/
theorem getLsbD_foldl_pushByte {w : Nat} (acc : BitVec w) (bytes : List Byte) {k r : Nat} (hk : k < bytes.length)
    (hr : r < 8) (hw : 8 * k + r < w) :
    (bytes.foldl pushByte acc).getLsbD (8 * k + r) = (bytes.reverse[k]'(by simpa using hk)).getLsbD r := by
  induction bytes using List.reverseRecOn generalizing k with
  | nil => exact absurd hk (Nat.not_lt_zero k)
  | append_singleton bytes x ih =>
    rw [List.foldl_append, List.foldl_cons, List.foldl_nil, getLsbD_pushByte _ _ hw]
    cases k with
    | zero => simp [hr]
    | succ k =>
      rw [if_neg (by omega), show 8 * (k + 1) + r - 8 = 8 * k + r by omega, ih (by simpa using hk) (by omega)]
      simp

/-- Byte `i` of the string is byte `i` of the port, counted from the most significant end. -/
theorem extractLsb'_portOf {n : Nat} (b : Vector Byte n) {i : Nat} (hi : i < n) :
    (portOf b).extractLsb' (8 * (n - 1 - i)) 8 = b[i] := by
  refine extractLsb'_eq_of_getLsbD fun r hr => ?_
  rw [portOf_eq_foldl, getLsbD_foldl_pushByte _ _ (by simp; omega) hr (by omega)]
  simp [show n - 1 - (n - 1 - i) = i by omega]

@[simp] theorem ofPort_portOf {n : Nat} (b : Vector Byte n) : ofPort (portOf b) = b :=
  Vector.ext fun i hi => by rw [ofPort, getElem_tabulate, extractLsb'_portOf b hi]

/-- Settles O42: every sub-block reads its ports with `ofPort`, which undoes `portOf`. -/
theorem portsCarryTheByteStrings : Obligations.PortsCarryTheByteStrings := by
  refine ⟨fun _ => ofPort_portOf, fun n b h => extractLsb'_portOf b h, fun key => ?_, fun keys b => ?_,
    fun keys w cap => ?_, fun b => ?_, fun w => ?_⟩
  · rw [keySchedulePort, ofPort_portOf]
  · rw [genericPort, ofPort_portOf]
  · rw [accelPort, ofPort_portOf]
  · rw [packPort, ofPort_portOf]
  · rw [unpackPort, ofPort_portOf]

end Sys2Proof.Machine
end

