-- ==== Sys2Proof/Proofs/GenericRound.lean ====
section
/-! The generic round (spec/41_generic_round.md): the recurrence behind EncryptBlock (R154 to R156), its inverse under the keys
of Expand (R158), the table-driven T (R160), the same round in every lane of the vectors (spec/42_accelerated_round.md R191,
R192), and the block that ENCRYPT and DECRYPT write (spec/44_dispatch_facade.md R226, R227). -/

namespace Sys2Proof.Machine

/-! ### The rounds as a recurrence (R154 to R156) -/

/-- R154: the state after `i` rounds, whose leading word is `X[i]` of R156. Past the last key the rounds take 0, so that
the words of the last state come to the front as well. -/
def roundState (keys : List Word) (x : Words4) : Nat → Words4
  | 0 => x
  | i + 1 => roundF (roundState keys x i) (keys.getD i 0)

/-- The state after `i` rounds is what the rounds of the first `i` keys leave. -/
theorem roundState_eq_rounds_take (keys : List Word) (x : Words4) {i : Nat} (h : i ≤ keys.length) :
    roundState keys x i = rounds (keys.take i) x := by
  induction i with
  | zero => rfl
  | succ i ih =>
    rw [roundState, ih (Nat.le_of_succ_le h), List.getD_eq_getElem _ _ h, List.take_succ_eq_append_getElem h, rounds, rounds,
      List.foldl_append]
    rfl

/-- R155, R156: EncryptBlock reverses the words of the state after 32 rounds. -/
theorem encryptBlock_eq_reverseBlock_roundState (keys : RoundKeys) (src : Block) :
    encryptBlock keys src = reverseBlock (roundState keys.toList (wordsOf src) 32) := by
  have hlen : keys.toList.length = 32 := Vector.length_toList
  rw [roundState_eq_rounds_take _ _ hlen.ge, List.take_of_length_le hlen.le, encryptBlock]

/-- Settles O31: `X[i]` is the leading word of the state after `i` rounds. A round moves the three words behind it to the front
one by one, so they are `X[i+1]` to `X[i+3]`. -/
theorem encryptBlockFollowsTheRounds : Obligations.EncryptBlockFollowsTheRounds := by
  intro keys src
  refine ⟨fun i => (roundState keys.toList (wordsOf src) i).x0, fun j hj => ?first, fun i hi => ?round, ?last⟩
  case first => interval_cases j <;> rfl
  case round =>
    have hkey : keys.toList.getD i 0 = keys[i] := by simp [hi]
    rw [← hkey]
    rfl
  case last => exact encryptBlock_eq_reverseBlock_roundState keys src

/-! ### Decryption (R158) -/

/-- Settles O33: the decryption keys of Expand are the mirrored encryption keys, which undo the rounds. -/
theorem decryptInvertsEncrypt : Obligations.DecryptInvertsEncrypt := by
  intro key enc dec p h
  rw [dec_eq_mirrorKeys_of_expand h]
  exact decryptBlock_encryptBlock (fun i => getElem_mirrorKeys enc i.val i.isLt) p

/-! ### The table-driven form (R160) -/

/-- Bit `j` of a byte shifted left by `n` within a word. -/
theorem getLsbD_zeroExtend_shiftLeft (b : Byte) (n : Nat) {j : Nat} (hj : j < 32) :
    (b.zeroExtend 32 <<< n).getLsbD j = if j < n then false else b.getLsbD (j - n) := by
  rw [BitVec.getLsbD_shiftLeft, BitVec.getLsbD_setWidth, decide_eq_true hj, decide_eq_true (Nat.lt_of_le_of_lt (j.sub_le n) hj)]
  split_ifs with h <;> simp [h]

/-- A word is the sum of its bytes, each shifted to its place: every bit comes from the one byte that reaches it. -/
theorem wordOf_eq_xor_shiftLeft (b0 b1 b2 b3 : Byte) : wordOf b0 b1 b2 b3 =
    b0.zeroExtend 32 <<< 24 ^^^ b1.zeroExtend 32 <<< 16 ^^^ b2.zeroExtend 32 <<< 8 ^^^ b3.zeroExtend 32 <<< 0 := by
  refine BitVec.eq_of_getLsbD_eq fun j hj => ?_
  simp only [getLsbD_wordOf, BitVec.getLsbD_xor, getLsbD_zeroExtend_shiftLeft _ _ hj]
  rcases (by omega : j < 8 ∨ (8 ≤ j ∧ j < 16) ∨ (16 ≤ j ∧ j < 24) ∨ 24 ≤ j) with h | h | h | h
  all_goals simp (disch := omega) only [if_pos, if_neg, BitVec.getLsbD_of_ge, Bool.false_xor, Bool.xor_false, Nat.sub_zero]

/-- Settles O35: tau's word is the sum of its substituted bytes, and L is linear. -/
theorem tableDrivenRoundAgrees : Obligations.TableDrivenRoundAgrees := by
  intro a
  rw [roundT, tau, wordOf_eq_xor_shiftLeft, diffuse_xor, diffuse_xor, diffuse_xor]
  rfl

/-! ### The round in every lane (R191, R192) -/

/-- Settles O37: both halves are the lane laws of the vector datapath. -/
theorem fourLaneRoundIsTheGenericRound : Obligations.FourLaneRoundIsTheGenericRound :=
  ⟨lane_lvec, lane_round4⟩

/-! ### The block commands (R226 to R228) -/

/-- R226 to R228: a block command that passes its checks completes with the transformed block at the destination and
RESULT = 0, and leaves STATUS and FAULT_CMD as they were. -/
theorem runBlockCommand_completes {n : Nat} {s : State} (d : Direction) (v : U64) (h : ReadyBlockCommand n s)
    (hm : s.mem.wf = true) : ∃ t, runBlockCommand d n v s = .next t ∧ t.mem.readBlock (s.operandNat .dstAddr) =
      encryptBlock ((s.slot n).keys d) (s.mem.readBlock (s.operandNat .srcAddr)) ∧
      t.result = 0 ∧ t.status = s.status ∧ t.faultCmd = s.faultCmd := by
  have hchecks := noFault_of_ready h
  obtain ⟨w, k, hrun⟩ := runBlockCommand_of_noFault (d := d) v hchecks
  refine ⟨_, hrun, ?_, rfl, rfl, rfl⟩
  exact Memory.readBlock_writeBlock _ hm (dst_inRange_of_noFault hchecks)

/-- Settles O19: ENCRYPT is the block command with ENC_RK. -/
theorem encryptWritesTheCiphertext : Obligations.EncryptWritesTheCiphertext := fun _ n hs =>
  runBlockCommand_completes .encrypt (encode (.encrypt n)) hs

/-- Settles O20: DECRYPT is the block command with DEC_RK, and DecryptBlock is the same transform (R157). -/
theorem decryptWritesThePlaintext : Obligations.DecryptWritesThePlaintext := fun _ n hs =>
  runBlockCommand_completes .decrypt (encode (.decrypt n)) hs

end Sys2Proof.Machine
end

