-- ==== Sys2Proof/Proofs/AcceleratedRound.lean ====
section
/-! The accelerated round engine (spec/42_accelerated_round.md): the substitution of its datapath is
SBOX (R180, R185, R189), and each lane of EncryptFourBlocks is EncryptBlock of that lane (R197), so lanes do not mix (R195). -/

namespace Sys2Proof.Machine

/-! ### The substitution (R180, R185, R189) -/

/-- Settles O36: the isomorphism and the byte tables are SBOX by the checked tables, and each byte of the vector goes through
the byte tables. -/
theorem vectorSubstitutionIsTheSBox : Obligations.VectorSubstitutionIsTheSBox := by
  refine ⟨fun x => (sbox_eq_isomorphism x).symm, sboxA_eq_sbox, fun x i => ?_⟩
  have hbyte : (sbox16 x)[i] = sboxA x[i] := getElem_sbox16 x i.isLt
  exact ⟨hbyte, hbyte.trans (sboxA_eq_sbox x[i])⟩

/-! ### The lanes of the four-block transform (R193 to R197) -/

/-- R197: wherever EncryptFourBlocks gives a value, each lane of it is EncryptBlock of that lane. -/
theorem laneBlock_of_encryptFourBlocks {cap : Bool} {keys : RoundKeys} {src out : Buffer}
    (h : encryptFourBlocks cap keys src = some out) (b : Fin 4) :
    laneBlock out b = encryptBlock keys (laneBlock src b) := by
  cases cap with
  | false => contradiction
  | true =>
    obtain rfl : fourBlocks keys src = out := Option.some.inj h
    exact laneBlock_fourBlocks keys src b

/-- R194, R197: likewise DecryptFourBlocks and DecryptBlock, which are the same two transforms. -/
theorem laneBlock_of_decryptFourBlocks {cap : Bool} {keys : RoundKeys} {src out : Buffer}
    (h : decryptFourBlocks cap keys src = some out) (b : Fin 4) :
    laneBlock out b = decryptBlock keys (laneBlock src b) :=
  laneBlock_of_encryptFourBlocks h b

/-- Settles O38: with CAP_AES = 1 both directions give the value `fourBlocks`, whose lanes are the generic transform's. -/
theorem backendsAgreeOnEveryLane : Obligations.BackendsAgreeOnEveryLane := by
  intro keys src
  have henc : encryptFourBlocks true keys src = some (fourBlocks keys src) := rfl
  have hdec : decryptFourBlocks true keys src = some (fourBlocks keys src) := rfl
  exact ⟨_, _, henc, hdec, fun b => ⟨laneBlock_of_encryptFourBlocks henc b, laneBlock_of_decryptFourBlocks hdec b⟩⟩

/-- Settles O39: by R197 each output lane is the generic transform of the input lane, and the two input lanes are equal. -/
theorem lanesAreIndependent : Obligations.LanesAreIndependent := by
  intro keys src src' out out' b hlane
  refine ⟨fun h h' => ?enc, fun h h' => ?dec⟩
  case enc => rw [laneBlock_of_encryptFourBlocks h, laneBlock_of_encryptFourBlocks h', hlane]
  case dec => rw [laneBlock_of_decryptFourBlocks h, laneBlock_of_decryptFourBlocks h', hlane]

end Sys2Proof.Machine
end

