-- ==== Sys2Proof/Proofs/BatchAdapter.lean ====
section
/-! The batch adapter (spec/43_batch_adapter.md): Unpack1 reads lane 0, and lane 0 of EncryptFourBlocks is the transform of
lane 0 alone (R197), so what stands in lanes 1 to 3 does not reach the output block (R213). -/

namespace Sys2Proof.Machine

/-! ### Lane 0 of the two paddings (R210, R211) -/

theorem unpack1_bufferOf (p g1 g2 g3 : Block) : unpack1 (bufferOf p g1 g2 g3) = p := by
  rw [unpack1_eq_laneBlock, laneBlock_bufferOf]
  rfl

theorem unpack1_pack1 (p : Block) : unpack1 (pack1 p) = p := by
  rw [unpack1_eq_laneBlock, laneBlock_pack1]

/-! ### The output block (R213) -/

/-- R197 on lane 0: the block unpacked from EncryptFourBlocks is EncryptBlock of the block unpacked from its source. -/
theorem map_unpack1_encryptFourBlocks (keys : RoundKeys) (src : Buffer) :
    (encryptFourBlocks true keys src).map unpack1 = some (encryptBlock keys (unpack1 src)) := by
  have hvalue : encryptFourBlocks true keys src = some (fourBlocks keys src) := rfl
  rw [hvalue, Option.map_some, unpack1_eq_laneBlock, laneBlock_of_encryptFourBlocks hvalue, unpack1_eq_laneBlock]

/-- Settles O40: the output block is EncryptBlock of lane 0 of the source, which is P in both buffers. -/
theorem paddingDoesNotLeak : Obligations.PaddingDoesNotLeak := by
  intro keys p g1 g2 g3
  rw [map_unpack1_encryptFourBlocks, map_unpack1_encryptFourBlocks, unpack1_bufferOf, unpack1_pack1]

end Sys2Proof.Machine
end

