-- ==== Sys2Proof/Proofs/DispatchFacade.lean ====
section
/-! The dispatch facade (spec/44_dispatch_facade.md): the prologue of a command (R223), BLOCKSIZE (R225), the order of the
fault causes (R255), the frame of a block command (R229) and the boot order (R284). -/

namespace Sys2Proof.Machine

/-! ### The command prologue (R223) -/

/-- R223, R254: in the fault state a word written to CMD is dropped. -/
theorem onCmdWrite_of_fault {v : U64} {s : State} (hs : s.status.fault = true) : onCmdWrite v s = .next s :=
  if_pos hs

/-- R223: without a fault, accepting a command clears all of STATUS. -/
theorem State.accept_eq_of_noFault {s : State} (hs : s.status.fault = false) :
    s.accept = { s with status := ⟨false, false, 0⟩ } := by
  rw [State.accept, Status.accepted, hs]

/-- R223: a word that decodes, written to CMD of an engine that is not in the fault state, runs its command with STATUS
cleared. -/
theorem onCmdWrite_of_decode_ok {v : U64} {s : State} {i : Instr} (hs : s.status.fault = false) (hi : decode v = .ok i) :
    onCmdWrite v s = exec i { s with status := ⟨false, false, 0⟩ } := by
  rw [← State.accept_eq_of_noFault hs]
  simp [onCmdWrite, hs, hi]

/-- Settles O6: the three clauses are the three ways a write to CMD goes. -/
theorem stepRunsTheDecodedCommand : Obligations.StepRunsTheDecodedCommand := by
  intro s v rest hi
  rw [step_cmd hi]
  refine ⟨fun hs => ?dropped, fun hs e he => ?illegal, fun hs i hd => ?runs⟩
  case dropped => exact onCmdWrite_of_fault hs
  case illegal => exact onCmdWrite_of_decode_error hs he
  case runs => exact onCmdWrite_of_decode_ok hs hd

/-! ### BLOCKSIZE (R225) -/

/-- R102: a word with opcode 2 that decodes is BLOCKSIZE's. -/
theorem eq_blocksize_of_decode_eq_ok {v : U64} {i : Instr} (h : decode v = .ok i) (hv : v.toNat % 256 = 2) :
    i = .blocksize := by
  have hopc : (opcodeOf i).toNat = 2 := by rw [← (decode_eq_ok_iff.mp h).2.1, opcField_toNat, hv]
  cases i with
  | blocksize => rfl
  | newcipher n | encrypt n | decrypt n => simp [opcodeOf] at hopc

/-- Settles O16: the word 2 is BLOCKSIZE's only word, so any other word with its opcode does not decode. -/
theorem blocksizeReturnsSixteen : Obligations.BlocksizeReturnsSixteen := by
  refine ⟨fun s => rfl, fun s rest hi hs => ?word, fun s v rest hi hs hopc hne => ?illFormed⟩
  case word => exact (stepRunsTheDecodedCommand s _ rest hi).2.2 hs .blocksize ((decode_eq_blocksize_iff _).mpr rfl)
  case illFormed =>
    cases hd : decode v with
    | error e => exact (stepRunsTheDecodedCommand s v rest hi).2.1 hs e hd
    | ok i =>
      rw [eq_blocksize_of_decode_eq_ok hd hopc, decode_eq_blocksize_iff] at hd
      exact absurd hd hne

/-! ### The order of the fault causes (R255) -/

/-- The cause of the first check that applies. -/
def firstCause (checks : List (Bool × FaultCause)) : Option FaultCause := (checks.find? (·.1)).map (·.2)

theorem firstCause_nil : firstCause [] = none := rfl

theorem firstCause_cons (b : Bool) (c : FaultCause) (checks : List (Bool × FaultCause)) :
    firstCause ((b, c) :: checks) = if b then some c else firstCause checks := by
  cases b <;> rfl

/-- R226, R255: the checks of a block command as conditions on the state, in the order of R255. -/
def blockChecks (n : Nat) (s : State) : List (Bool × FaultCause) :=
  let sa := s.operandNat .srcAddr
  let da := s.operandNat .dstAddr
  [(decide (s.nslots ≤ n), .badSlot),
   (!(s.written .srcAddr && s.written .srcLen && s.written .dstAddr && s.written .dstLen), .uninitOperand),
   (!(s.slot n).valid, .noInstance),
   (decide ((s.slot n).tag = .accel ∧ s.platform.capAes = false), .accelUnsupported),
   (decide (s.operandNat .srcLen < 16), .srcShort),
   (decide (s.operandNat .dstLen < 16), .dstShort),
   (decide (2 ^ 64 < sa + 16 ∨ 2 ^ 64 < da + 16), .addrRange),
   (decide (sa < da + 16 ∧ da < sa + 16 ∧ sa ≠ da), .overlap),
   (!(memAdmit s.platform sa 16 .read && memAdmit s.platform da 16 .write), .busError)]

/-- R77: a buffer is out of range when its end is past the top of memory. -/
theorem not_inRange (a n : Nat) : (!inRange a n) = decide (2 ^ 64 < a + n) := by
  rw [inRange, ← decide_not, decide_eq_decide, Nat.not_le]

/-- The fault of a block command is the cause of the first check that applies. -/
theorem blockCommandFault_eq_firstCause (n : Nat) (s : State) : blockCommandFault n s = firstCause (blockChecks n s) := by
  have hoverlap : ∀ a b, inexactOverlap a b = decide (a < b + 16 ∧ b < a + 16 ∧ a ≠ b) := fun a b => by
    rw [Bool.eq_iff_iff, inexactOverlap_iff, decide_eq_true_iff]
  simp only [blockCommandFault, blockChecks, firstCause_cons, firstCause_nil, allWritten_blockOperands, not_inRange,
    hoverlap, decide_eq_true_iff, Bool.or_eq_true, Bool.and_eq_true, Bool.not_eq_true']

/-- Settles O22: the checks of the statement are `blockChecks`, and a block command that passes them keeps STATUS. -/
theorem blockCommandFaultPriority : Obligations.BlockCommandFaultPriority := by
  intro s n c
  refine ⟨fun hfirst => ?fault, fun hs hnone => ?noFault⟩
  case fault =>
    have hfault : blockCommandFault n s = some c := by
      rw [blockCommandFault_eq_firstCause]
      exact congrArg (Option.map Prod.snd) hfirst
    exact ⟨runBlockCommand_of_fault hfault, runBlockCommand_of_fault hfault⟩
  case noFault =>
    have hpass : blockCommandFault n s = none := by
      rw [blockCommandFault_eq_firstCause]
      exact congrArg (Option.map Prod.snd) hnone
    obtain ⟨_, _, hencrypt⟩ := runBlockCommand_of_noFault (d := .encrypt) (encode (.encrypt n)) hpass
    obtain ⟨_, _, hdecrypt⟩ := runBlockCommand_of_noFault (d := .decrypt) (encode (.decrypt n)) hpass
    exact ⟨_, _, hencrypt, hs, hdecrypt, hs⟩

/-- Settles O23: the first two causes are those of the operand checks, the last two those of the key buffer, and both
outcomes without a fault keep FAULT. -/
theorem newcipherFaultPriority : Obligations.NewcipherFaultPriority := by
  intro s n fails ka operandsWritten
  have hpass : n < s.nslots → operandsWritten → newcipherOperandFault n s = none := fun hslot hw =>
    newcipherOperandFault_eq_none_iff.mpr ⟨hslot, hw⟩
  refine ⟨fun hslot => ?badSlot, fun hslot hw => ?uninitOperand, fun hslot hw hlen hrange => ?addrRange,
    fun hslot hw hlen hrange hadmit => ?busError, fun hs hslot hw hok => ?noFault⟩
  case badSlot => exact execNewcipher_of_operandFault (if_pos hslot)
  case uninitOperand =>
    have hwritten : (!s.allWritten keyOperands) = true := by
      rw [allWritten_keyOperands, Bool.not_eq_true', ← Bool.not_eq_true, Bool.and_eq_true]
      exact hw
    exact execNewcipher_of_operandFault ((if_neg (Nat.not_le.mpr hslot)).trans (if_pos hwritten))
  case addrRange =>
    have hfault : keyBufferFault s = some .addrRange := if_pos ((not_inRange _ _).trans (decide_eq_true hrange))
    exact execNewcipher_of_bufferFault (hpass hslot hw) hlen hfault
  case busError =>
    have hfault : keyBufferFault s = some .busError := by
      rw [keyBufferFault, inRange_iff.mpr hrange, hadmit]
      rfl
    exact execNewcipher_of_bufferFault (hpass hslot hw) hlen hfault
  case noFault =>
    by_cases hlen : s.operandNat .keyLen = 16
    · have hbuffer := keyBufferFault_eq_none_iff.mpr (hok.resolve_left (not_not.mpr hlen))
      refine ⟨_, execNewcipher_of_noFault (hpass hslot hw) hlen hbuffer, ?_⟩
      rw [engineFor_state]
      exact hs
    · exact ⟨_, execNewcipher_of_keySize (hpass hslot hw) hlen, hs⟩

/-! ### The frame of a block command (R229) -/

/-- Settles O26: a fault touches STATUS and FAULT_CMD, success WR, the destination block and RESULT. -/
theorem blockCommandFrame : Obligations.BlockCommandFrame := by
  intro s t n i hi h
  obtain ⟨d, hexec⟩ := exec_eq_runBlockCommand hi
  rw [hexec] at h
  obtain ⟨c, rfl⟩ | ⟨w, k, b, rfl⟩ := runBlockCommand_next h
  · exact ⟨rfl, rfl, rfl, rfl, rfl, rfl, .inl ⟨c, rfl⟩⟩
  · exact ⟨rfl, rfl, rfl, rfl, rfl, rfl, .inr ⟨rfl, rfl, rfl, fun a => Memory.read_writeBlock_outside s.mem b⟩⟩

/-! ### The boot order (R284, R287) -/

/-- One step that answers a next state leaves the other steps to that state. -/
theorem run_succ_of_step {M : Host.Core} {k : Nat} {s t : M.State} (h : M.step s = .next t) :
    M.run (k + 1) s = M.run k t := by
  rw [Host.Core.run, h]

/-- R284 step 3: the host has written the address of a 16-byte key. -/
def State.withKey (s : State) (ka : U64) : State := (s.writeOperand .keyAddr ka).writeOperand .keyLen 16

theorem State.operandNat_withKey (s : State) (ka : U64) :
    (s.withKey ka).operandNat .keyAddr = ka.toNat ∧ (s.withKey ka).operandNat .keyLen = 16 := by
  have haddr : (s.withKey ka).operand .keyAddr = ka := by
    rw [State.withKey, State.operand_writeOperand_ne _ _ (by decide), State.operand_writeOperand_same]
  have hlen : (s.withKey ka).operand .keyLen = 16 := State.operand_writeOperand_same ..
  rw [State.operandNat, haddr, State.operandNat, hlen]
  exact ⟨rfl, rfl⟩

theorem readyNewcipher_withKey {s : State} {n : Nat} {ka : U64} (hslot : n < s.nslots) (hrange : ka.toNat + 16 ≤ 2 ^ 64)
    (hadmit : memAdmit s.platform ka.toNat 16 .read = true) : ReadyNewcipher n (s.withKey ka) := by
  obtain ⟨haddr, hlen⟩ := s.operandNat_withKey ka
  have hwritten : (s.withKey ka).written .keyAddr = true := by
    rw [State.withKey, State.written_writeOperand_ne _ _ (by decide), State.written_writeOperand_same]
  refine ⟨hslot, hwritten, State.written_writeOperand_same .., hlen, ?_⟩
  rw [haddr]
  exact ⟨hrange, hadmit⟩

/-- R71: NEWCIPHER writes no host memory. -/
theorem exec_newcipher_mem {n : Nat} {s t : State} (h : exec (.newcipher n) s = .next t) : t.mem = s.mem := by
  rcases execNewcipher_cases n s with ⟨c, -, hrun⟩ | ⟨-, -, hrun⟩ | ⟨-, -, -, hrun⟩ <;> rw [exec, hrun] at h <;>
    injection h with h <;> subst h
  · rfl
  · rfl
  · rw [engineFor_state]
    rfl

/-- R30, R32: the two writes of the key operands take two steps. -/
theorem run_withKey {k : Nat} {s : State} {ka a1 a2 : U64} {rest : List HostAccess}
    (ha1 : a1.toNat = s.platform.mmioBase.toNat + 0x20) (ha2 : a2.toNat = s.platform.mmioBase.toNat + 0x28)
    (hi : s.inbox = .writeReg a1 8 ka :: .writeReg a2 8 16 :: rest) :
    core.run (k + 2) s = core.run k (State.withKey { s with inbox := rest } ka) := by
  have haddr := step_writeReg ha1 (regAt_offset .keyAddr) hi
  have hlen := step_writeReg (s := State.writeOperand { s with inbox := .writeReg a2 8 16 :: rest } .keyAddr ka) ha2
    (regAt_offset .keyLen) rfl
  exact (run_succ_of_step (M := core) haddr).trans (run_succ_of_step (M := core) hlen)

/-- Settles O57: the first two steps write the two operands, and the third is NEWCIPHER with its conditions met. -/
theorem bootOrderCreatesTheInstance : Obligations.BootOrderCreatesTheInstance := by
  intro s n ka a1 a2 rest hs hslot hn ha1 ha2 hrange hadmit hi
  obtain ⟨t, hexec, hvalid, henc, hdec, -, -, -, hresult, hstatus, -⟩ := newcipherCreatesTheInstance _ n
    (readyNewcipher_withKey (s := { s with inbox := rest, status := ⟨false, false, 0⟩ }) hslot hrange hadmit)
  obtain ⟨-, -, -, -, -, hinbox, -⟩ := newcipherAndBlocksizeFrame.1 _ t n hexec
  have hmem := exec_newcipher_mem hexec
  rw [(State.operandNat_withKey _ ka).1] at henc hdec
  refine ⟨t, ?run, hinbox, hstatus, hresult, hvalid, henc, hdec, hmem⟩
  have hdecode : decode (encode (.newcipher n)) = .ok (.newcipher n) :=
    decodeOfEncodeIsTheCommand (.newcipher n) (decide_eq_true hn)
  have hcmd := (stepRunsTheDecodedCommand
    (State.withKey { s with inbox := .writeReg s.platform.mmioBase 8 (encode (.newcipher n)) :: rest } ka) _ rest rfl).2.2
    hs _ hdecode
  exact (run_withKey ha1 ha2 hi).trans (run_succ_of_step (M := core) (hcmd.trans hexec))

end Sys2Proof.Machine
end

