-- ==== Sys2Proof/Proofs/Exceptions.lean ====
section
/-! The statements about outcomes and faults (spec/60_exceptions.md): an idle engine (R264), the three outcomes of a command
(R250), what a faulting command changes and reads (R253, R256), and what the fault state keeps (R254, R258). -/

namespace Sys2Proof.Machine

/-! ### The idle engine (R264, R281) -/

/-- Settles O7: a step only takes a waiting access. -/
theorem idleEngineHoldsItsState : Obligations.IdleEngineHoldsItsState := by
  intro s hi
  rw [step, takeNext, hi]

/-! ### The three outcomes (R250) -/

/-- A command takes no host access. -/
theorem onCmdWrite_inbox {x : List HostAccess} : ∀ v s t, s.inbox = x → onCmdWrite v s = .next t → t.inbox = x :=
  onCmdWrite_keeps (P := fun s => s.inbox = x) (haccept := fun _ h => h) (hfault := fun _ _ _ h => h)
    (hkeySize := fun _ _ _ h => h) (hcreate := fun s _ _ h => by rw [engineFor_state]; exact h)
    (hblocksize := fun _ h => h) (hblock := fun _ _ _ _ _ _ h => h)

/-- A write to CMD is never refused and never stops the machine. -/
theorem onCmdWrite_answers (v : U64) (s : State) : ∃ t, onCmdWrite v s = .next t := by
  cases hs : s.status.fault with
  | true => exact ⟨s, onCmdWrite_of_fault hs⟩
  | false =>
    cases hd : decode v with
    | error e => exact ⟨_, onCmdWrite_of_decode_error hs hd⟩
    | ok i =>
      rw [onCmdWrite_of_decode_ok hs hd]
      exact exec_answers i _

/-- R250: an accepted command ends in success, in the KEY_SIZE error, or in a fault. -/
theorem onCmdWrite_status {v : U64} {s t : State} (hs : s.status.fault = false) (h : onCmdWrite v s = .next t) :
    t.status = ⟨false, false, 0⟩ ∨ t.status = ⟨false, true, 0x20#8⟩ ∨
      ∃ c : FaultCause, t.status = ⟨true, false, c.code⟩ := by
  cases hd : decode v with
  | error e =>
    rw [onCmdWrite_of_decode_error hs hd] at h
    injection h with h
    exact .inr (.inr ⟨.illegalCommand, by rw [← h, State.raiseFault_status]⟩)
  | ok i =>
    rw [onCmdWrite_of_decode_ok hs hd] at h
    exact exec_status h

/-- Settles O8: a write to CMD answers a next state, with the other accesses still waiting and one of the three statuses. -/
theorem everyAcceptedCommandEndsInOneOutcome : Obligations.EveryAcceptedCommandEndsInOneOutcome := by
  intro s v rest hi hs
  obtain ⟨t, h⟩ := onCmdWrite_answers v { s with inbox := rest }
  exact ⟨t, (step_cmd hi).trans h, onCmdWrite_inbox _ _ _ rfl h, onCmdWrite_status (s := { s with inbox := rest }) hs h⟩

/-! ### Precise faults (R253, R256)

The checks of a command read the operand registers, the slots and the platform, so the cause of a fault is the same over
every host memory. -/

/-- R224: a NEWCIPHER that reaches the fault state does so by raising one cause, whatever host memory holds. -/
theorem execNewcipher_raisesFault {n : Nat} {s t : State} (hs : s.status.fault = false)
    (h : execNewcipher n s = .next t) (ht : t.status.fault = true) :
    ∃ c, ∀ m, execNewcipher n { s with mem := m } =
      .next (State.raiseFault { s with mem := m } c (encode (.newcipher n))) := by
  have noFault : ∀ u, u.status.fault = false → execNewcipher n s ≠ .next u := by
    rintro u hu hrun
    injection h.symm.trans hrun with htu
    simp [← htu, ht] at hu
  cases hops : newcipherOperandFault n s with
  | some c => exact ⟨c, fun m => execNewcipher_of_operandFault (s := { s with mem := m }) hops⟩
  | none =>
    by_cases hlen : s.operandNat .keyLen = 16
    · cases hbuffer : keyBufferFault s with
      | some c => exact ⟨c, fun m => execNewcipher_of_bufferFault (s := { s with mem := m }) hops hlen hbuffer⟩
      | none =>
        refine absurd (execNewcipher_of_noFault hops hlen hbuffer) (noFault _ ?_)
        rw [engineFor_state]
        exact hs
    · exact absurd (execNewcipher_of_keySize hops hlen) (noFault _ hs)

/-- R226, R227: a block command that reaches the fault state does so by raising one cause, whatever host memory holds. -/
theorem runBlockCommand_raisesFault {d : Direction} {n : Nat} {v : U64} {s t : State} (hs : s.status.fault = false)
    (h : runBlockCommand d n v s = .next t) (ht : t.status.fault = true) :
    ∃ c, ∀ m, runBlockCommand d n v { s with mem := m } = .next (State.raiseFault { s with mem := m } c v) := by
  cases hchecks : blockCommandFault n s with
  | some c => exact ⟨c, fun m => runBlockCommand_of_fault (s := { s with mem := m }) hchecks⟩
  | none =>
    obtain ⟨_, _, hrun⟩ := runBlockCommand_of_noFault (d := d) v hchecks
    injection h.symm.trans hrun with htu
    simp [htu, hs] at ht

/-- R253: a command that reaches the fault state does so by raising one cause, whatever host memory holds. -/
theorem exec_raisesFault {i : Instr} {s t : State} (hs : s.status.fault = false) (h : exec i s = .next t)
    (ht : t.status.fault = true) :
    ∃ c, ∀ m, exec i { s with mem := m } = .next (State.raiseFault { s with mem := m } c (encode i)) := by
  cases i with
  | newcipher n => exact execNewcipher_raisesFault hs h ht
  | blocksize =>
    injection h with h
    simp [← h, hs] at ht
  | encrypt n => exact runBlockCommand_raisesFault hs h ht
  | decrypt n => exact runBlockCommand_raisesFault hs h ht

/-- R253: a write to CMD that reaches the fault state raises one cause, with the word written as FAULT_CMD, whatever host
memory holds. -/
theorem onCmdWrite_raisesFault {v : U64} {s t : State} (hs : s.status.fault = false) (h : onCmdWrite v s = .next t)
    (ht : t.status.fault = true) :
    ∃ c, ∀ m, onCmdWrite v { s with mem := m } = .next (State.raiseFault { s with mem := m } c v) := by
  cases hd : decode v with
  | error e => exact ⟨.illegalCommand, fun m => onCmdWrite_of_decode_error (s := { s with mem := m }) hs hd⟩
  | ok i =>
    rw [onCmdWrite_of_decode_ok hs hd] at h
    obtain ⟨c, hrun⟩ := exec_raisesFault rfl h ht
    have hword : encode i = v := (encodeOfDecodeIsTheWord v i hd).2
    rw [hword] at hrun
    exact ⟨c, fun m => (onCmdWrite_of_decode_ok (s := { s with mem := m }) hs hd).trans (hrun m)⟩

/-- Settles O21: the fault is raised over every host memory, the state's own included. -/
theorem faultsArePrecise : Obligations.FaultsArePrecise := by
  intro s t v rest hi hs h ht
  rw [step_cmd hi] at h
  obtain ⟨c, hrun⟩ := onCmdWrite_raisesFault (s := { s with inbox := rest }) hs h ht
  injection h.symm.trans (hrun s.mem) with htc
  subst htc
  exact ⟨⟨c, rfl⟩, fun m => (step_cmd (s := { s with mem := m }) hi).trans (hrun m)⟩

/-! ### The fault state (R254, R258) -/

/-- Settles O9: in the fault state a write to CMD is dropped, and of the other accesses only reset touches more than the
operand registers, host memory and the host's own side. -/
theorem faultsDoNotNest : Obligations.FaultsDoNotNest := by
  refine fun s hs => ⟨fun v rest hi => ?dropped, fun t h hrst => ?kept⟩
  case dropped => exact (stepRunsTheDecodedCommand s v rest hi).1 hs
  case kept =>
    rcases step_engine_cases h with ⟨_, _, _, rfl⟩ | ⟨rest, hi⟩ | ⟨v, rest, -, h⟩ | ⟨_, _, _, _, -, -, rfl⟩
    · exact ⟨rfl, rfl, rfl, rfl, rfl⟩
    · exact absurd hi (hrst rest)
    · rw [onCmdWrite_of_fault (s := { s with inbox := rest }) hs] at h
      injection h with h
      subst h
      exact ⟨rfl, rfl, rfl, rfl, rfl⟩
    · exact ⟨rfl, rfl, rfl, rfl, rfl⟩

end Sys2Proof.Machine
end

