-- ==== Sys2Proof/Proofs/ResetAndHazards.lean ====
section
/-! The statement about the reset event (spec/70_reset_and_hazards.md R280, R282): it gives the engine the values of R49 and
leaves host memory and the parameters of the run alone. -/

namespace Sys2Proof.Machine

/-- The flags of the reset event are those of the state after reset on the same platform (R49). -/
theorem State.resetEvent_written (s : State) (r : OpReg) : s.resetEvent.written r = false :=
  resetOn_written s.platform s.nslots r

@[inherit_doc State.resetEvent_written]
theorem State.resetEvent_slot_valid (s : State) (k : Nat) : (s.resetEvent.slot k).valid = false :=
  resetOn_slot_valid s.platform s.nslots k

/-- R282: the reset event leaves the parameters of the run (R9) alone. -/
theorem State.resetEvent_hasParameters (s : State) : s.resetEvent.HasParameters s.platform s.nslots :=
  State.hasParameters_resetEvent.mpr ⟨rfl, rfl⟩

/-- Settles O55: the step that takes RST is the reset event, whatever the state. -/
theorem resetEventClearsTheEngine : Obligations.ResetEventClearsTheEngine := by
  intro s rest hi
  let u : State := { s with inbox := rest }
  obtain ⟨hplatform, hnslots⟩ := u.resetEvent_hasParameters
  exact ⟨u.resetEvent, step_rst hi, u.resetEvent_status, u.resetEvent_result, u.resetEvent_faultCmd, u.resetEvent_written,
    u.resetEvent_slot_valid, u.resetEvent_engineSel, u.resetEvent_mem, hplatform, hnslots, u.resetEvent_inbox⟩

end Sys2Proof.Machine
end
